-- ==== Sys2Proof/Word.lean ====
section
/-! DEFINITION. The three widths of FECLIB-CORE: bytes, register words and nonzero bytes (10_state.md, 00_scope.md R10). -/

namespace Sys2Proof

/-- A field element of GF(2^8), and a byte of block memory (R9 `FIELD_BITS`, R50). -/
abbrev Byte := BitVec 8

/-- A register or command word (R26 "All registers are 32 bits wide", R70). -/
abbrev Word := BitVec 32

/-- A field element that is not `0x00`. `div` by zero and `inv` of zero have no value (R105, R106, U1) and
`LOG[0x00]` has none (R22): what needs a nonzero element takes one of this type. -/
abbrev NonzeroByte := { b : Byte // b ≠ 0#8 }

end Sys2Proof
end

