-- ==== Sys2Proof/Syntax.lean ====
section
/-! DEFINITION. The eight commands (30_encoding.md R72), one constructor per row of spec/opcode_table.json. -/

namespace Sys2Proof

/-- A command. Field elements are bytes; counts and indices are unsigned integers taken as they stand (R10, R73);
the ranges their fields can carry are the checks of WellFormed.lean. Operands are in the assembler's order (R85). -/
inductive Instr where
  /-- `INIT`: build the field tables (R100). -/
  | init
  /-- `GFMUL a, b` (R107). -/
  | gfmul (a b : Byte)
  /-- `GFDIV a, b`: `a` is the dividend, `b` the divisor (R108). -/
  | gfdiv (a b : Byte)
  /-- `GFINV a` (R109). -/
  | gfinv (a : Byte)
  /-- `BUILD n, k`: `n` total blocks, `k` data blocks (R130). -/
  | build (n k : Nat)
  /-- `MATRD row, col` (R136). -/
  | matrd (row col : Nat)
  /-- `ENCODE k, m`: `k` data blocks, `m = n - k` parity blocks (R150). -/
  | encode (k m : Nat)
  /-- `DECODE k, E, A`: `e` erased data blocks, `a` surviving parity blocks listed (R170). -/
  | decode (k e a : Nat)
  deriving DecidableEq, Repr

end Sys2Proof
end

