-- ==== Sys2Proof/WellFormed.lean ====
section
/-! DEFINITION. When a command can be written as a command word: every field in the range its bits carry (R71, R73). -/

namespace Sys2Proof

/-- A 9-bit count field holds an integer `0..511` (R73). -/
abbrev countFits (v : Nat) : Prop := v < 512

/-- An 8-bit index field of MATRD holds an integer `0..255` (R73). -/
abbrev indexFits (v : Nat) : Prop := v < 256

/-- Every field of the command is in the range its bits carry. The legality of the values (`k` against `n`, an index
against the matrix) is no part of this: such words decode, and the command's own checks reject them (R73). -/
def wellFormed : Instr → Bool
  | .init => true
  | .gfmul _ _ => true
  | .gfdiv _ _ => true
  | .gfinv _ => true
  | .build n k => decide (countFits n ∧ countFits k)
  | .matrd row col => decide (indexFits row ∧ indexFits col)
  | .encode k m => decide (countFits k ∧ countFits m)
  | .decode k e a => decide (countFits k ∧ countFits e ∧ countFits a)

end Sys2Proof
end

