-- ==== Sys2Proof/Decode.lean ====
section
/-! DEFINITION. The command decoder, total on every 32-bit word and rejecting by name (30_encoding.md R70 to R81), and
after it the encoder, written from the same formats. -/

namespace Sys2Proof

/-- Why a word is no command. Both reasons are the error `ILLCMD` (R76, R77, R209). -/
inductive Illegal where
  /-- The opcode is `0x0` or `0x9` to `0xF` (R76). -/
  | reservedOpcode (op : Nat)
  /-- The opcode is defined and a `zero` field of its format is not zero (R77, R79). -/
  | mustBeZero (op : Nat)
  deriving DecidableEq, Repr

/-- `w[hi:lo]` of R10: the unsigned value of bits `hi` down to `lo`. -/
def slice (w : Word) (hi lo : Nat) : Nat := w.toNat / 2 ^ lo % 2 ^ (hi + 1 - lo)

/-- The 8-bit field `w[lo+7:lo]` as a field element. -/
def byteField (w : Word) (lo : Nat) : Byte := BitVec.ofNat 8 (slice w (lo + 7) lo)

/-- Accept `i` when the format's `zero` field `w[hi:lo]` is zero (R77, R79). -/
def whenZero (w : Word) (hi lo : Nat) (i : Instr) : Except Illegal Instr :=
  if slice w hi lo = 0 then .ok i else .error (.mustBeZero (slice w 31 28))

/-- Format S1 has two `zero` fields, bits 27:16 and 7:0 (R71). -/
def decodeGfinv (w : Word) : Except Illegal Instr :=
  if slice w 7 0 = 0 then whenZero w 27 16 (.gfinv (byteField w 8)) else .error (.mustBeZero (slice w 31 28))

/-- The command a word written to `CMD` is, or why it is none (R70 to R74, R76, R77). -/
def decode (w : Word) : Except Illegal Instr :=
  match slice w 31 28 with
  | 1 => whenZero w 27 0 .init
  | 2 => whenZero w 27 16 (.gfmul (byteField w 8) (byteField w 0))
  | 3 => whenZero w 27 16 (.gfdiv (byteField w 8) (byteField w 0))
  | 4 => decodeGfinv w
  | 5 => whenZero w 27 18 (.build (slice w 17 9) (slice w 8 0))
  | 6 => whenZero w 27 16 (.matrd (slice w 15 8) (slice w 7 0))
  | 7 => whenZero w 27 18 (.encode (slice w 8 0) (slice w 17 9))
  | 8 => whenZero w 27 27 (.decode (slice w 8 0) (slice w 17 9) (slice w 26 18))
  | op => .error (.reservedOpcode op)

/-- Format Z: `op`, 28 zero bits (R71). -/
def formatZ (op : BitVec 4) : Word := op ++ 0#28

/-- Format S: `op`, 12 zero bits, `a`, `b` (R71). -/
def formatS (op : BitVec 4) (a b : Byte) : Word := op ++ 0#12 ++ a ++ b

/-- Format P: `op`, 10 zero bits, `hi`, `lo` (R71). -/
def formatP (op : BitVec 4) (hi lo : Nat) : Word :=
  op ++ 0#10 ++ BitVec.ofNat 9 hi ++ BitVec.ofNat 9 lo

/-- Format D: `op`, one zero bit, `A`, `E`, `k` (R71). -/
def formatD (op : BitVec 4) (a e k : Nat) : Word :=
  op ++ 0#1 ++ BitVec.ofNat 9 a ++ BitVec.ofNat 9 e ++ BitVec.ofNat 9 k

/-- The command word of a command (R71, R72). Format S1 is format S with a zero second operand. -/
def encode : Instr → Word
  | .init => formatZ 0x1
  | .gfmul a b => formatS 0x2 a b
  | .gfdiv a b => formatS 0x3 a b
  | .gfinv a => formatS 0x4 a 0#8
  | .build n k => formatP 0x5 n k
  | .matrd row col => formatS 0x6 (BitVec.ofNat 8 row) (BitVec.ofNat 8 col)
  | .encode k m => formatP 0x7 m k
  | .decode k e a => formatD 0x8 a e k

/-- The match value of the command's row in R74. -/
def rowMatch : Instr → Word
  | .init => 0x10000000
  | .gfmul _ _ => 0x20000000
  | .gfdiv _ _ => 0x30000000
  | .gfinv _ => 0x40000000
  | .build _ _ => 0x50000000
  | .matrd _ _ => 0x60000000
  | .encode _ _ => 0x70000000
  | .decode _ _ _ => 0x80000000

/-- The mask of the command's row in R74. -/
def rowMask : Instr → Word
  | .init => 0xFFFFFFFF
  | .gfmul _ _ => 0xFFFF0000
  | .gfdiv _ _ => 0xFFFF0000
  | .gfinv _ => 0xFFFF00FF
  | .build _ _ => 0xFFFC0000
  | .matrd _ _ => 0xFFFF0000
  | .encode _ _ => 0xFFFC0000
  | .decode _ _ _ => 0xF8000000

/-- The eight (match, mask) pairs of R74, one command standing for each row. -/
def rows : List (Word × Word) :=
  [Instr.init, .gfmul 0 0, .gfdiv 0 0, .gfinv 0, .build 0 0, .matrd 0 0, .encode 0 0, .decode 0 0 0].map
    fun i => (rowMatch i, rowMask i)

/-- The command the decoder reads from a table row's word: a command is one 32-bit word (R70, R80), so its bits are
the word's bits. -/
def decodeTableWord (nbits w : Nat) : Option Instr :=
  (decode (BitVec.ofNat 32 (w % 2 ^ nbits))).toOption

end Sys2Proof
end

