-- ==== Sys2Proof/Config.lean ====
section
/-! DEFINITION. The parameters of the hardware and the values the spec takes for them (00_scope.md R9), and what the
platform fixes. -/

namespace Sys2Proof

/-- `POLY = 0x11D`, bit `i` the coefficient of `x^i` (R9, R101; the spec's own decision D2, log 9). -/
def Config.poly : BitVec 9 := 0x11D

/-- `GEN = 0x02`, the primitive element (R9, R101; the spec's own decision D3, log 9). -/
def Config.generator : Byte := 0x02

/-- `ORDER = 255`: exponent arithmetic is modulo this (R9, R104). -/
def Config.order : Nat := 255

/-- `MAXN = 256`: the largest total block count `n` (R9). -/
def Config.maxN : Nat := 256

/-- `AW = 32`: the width of a block-memory address (R9, R50). -/
def Config.addressWidth : Nat := 32

/-- `2^AW`, the number of bytes of block memory (R50). -/
def Config.memSize : Nat := 2 ^ Config.addressWidth

/-- What a byte of block memory that nothing has written reads as. DESIGN CHOICE, unsafe (log 5): R43 leaves the
contents at power-up to the platform. -/
def Config.unlistedByte : Byte := 0

/-- The holes of the platform's memory as (base, length) pairs: the parameter `mem_valid` of R62 and U7, with the
spec's default, every address valid (log 8). -/
def Config.memHoles : List (Nat × Nat) := []

end Sys2Proof
end

