-- ==== Sys2Proof/Machine/State.lean ====
section
/-! DEFINITION. The state of the engine and of block memory as plain data (10_state.md R20, 20_memory.md R50), the
host's moves, and the state after reset (R43). -/

namespace Sys2Proof.Machine

/-- The outcome codes of `STATUS.ERR` (60_exceptions.md R201). Codes 10 to 15 are never produced (R201, U15). -/
inductive Err where
  | ok
  | config
  | insufficient
  | index
  | singular
  | divZero
  | notInit
  | noMatrix
  | illCmd
  | badBuf
  deriving DecidableEq, Repr

/-- The field tables `EXP` and `LOG` (R21, R22). `LOG[0x00]` has no defined value and nothing reads it. -/
structure Tables where
  exp : Vector Byte 256
  log : Vector Byte 256
  deriving DecidableEq, Repr

/-- A matrix of field elements, row by row. -/
abbrev ByteMatrix := List (List Byte)

/-- Block memory: the bytes that differ from `Config.unlistedByte`, by rising address (R50). -/
abbrev Memory := List Host.Cell

/-- The four operand tables (10_state.md section 5). -/
inductive OperandTable where
  | dptr
  | fptr
  | fidx
  | eras
  deriving DecidableEq, Repr

/-- The registers of the register port (30_encoding.md R82). -/
inductive Reg where
  | cmd
  | status
  | result
  | blksz
  | dims
  | slot (t : OperandTable) (i : Fin 256)
  deriving DecidableEq, Repr

/-- The host's moves (30_encoding.md R86, 70_reset_and_hazards.md R243). A command is `wr 0 w`. -/
inductive HostMove where
  /-- `WR`: write the 32-bit value `v` at a byte offset of the register port. -/
  | wr (offset : Nat) (v : Word)
  /-- `RD`: read the register at a byte offset of the register port. -/
  | rd (offset : Nat)
  /-- `ST`: store the bytes to block memory at `addr`, `addr + 1`, ... -/
  | st (addr : Nat) (bytes : List Byte)
  /-- `LD`: load `len` bytes of block memory from `addr`. -/
  | ld (addr len : Nat)
  /-- The platform asserts the engine's reset (R230). -/
  | reset
  deriving DecidableEq, Repr

/-- What the host's most recent read returned (R243, column "host gets back"). -/
inductive Reply where
  | nothing
  | word (v : Word)
  | bytes (bs : List Byte)
  deriving DecidableEq, Repr

/-- The engine (R20), block memory (R50), and the model's own `pending` and `reply` (log 1). -/
structure State where
  /-- `EXP` and `LOG` (R21, R22). -/
  tables : Tables
  /-- `STATUS.TV`, tables valid (R23). -/
  tv : Bool
  /-- `G`, the entries that hold a value: `N` rows of `K` (R24). -/
  gen : ByteMatrix
  /-- `N` (R25). -/
  dimN : BitVec 9
  /-- `K` (R25). -/
  dimK : BitVec 9
  /-- `STATUS.MV`, matrix valid (R25). -/
  mv : Bool
  /-- `STATUS.ERR` (R26). -/
  err : Err
  /-- `RESULT`, bits 7:0 (R27). -/
  result : Byte
  /-- `BLKSZ` (R28). -/
  blksz : Word
  /-- `DPTR[0..255]` (R31). -/
  dptr : Vector Word 256
  /-- `FPTR[0..255]` (R32). -/
  fptr : Vector Word 256
  /-- `FIDX[0..255]` (R33). -/
  fidx : Vector Word 256
  /-- `ERAS[0..255]` (R34). -/
  eras : Vector Word 256
  /-- Block memory (R50). -/
  mem : Memory
  /-- The model's own: the host's moves not yet made, the next one first (R241, log 1). -/
  pending : List HostMove
  /-- The model's own: what the host's most recent read returned (R243, log 1). -/
  reply : Reply
  deriving DecidableEq, Repr

/-- Faults of the machine. A failing command is none of them: it is a next state with its code in `ERR` (R13). -/
inductive Fault where
  /-- Raised by the host's `ST` or `LD` at an address outside `0 .. 2^AW - 1`, which the spec gives no such address
  (R50). Safe: the machine stops. -/
  | outsideMem
  deriving DecidableEq, Repr

/-- Steps the spec gives no meaning. -/
inductive Refusal where
  /-- Raised by exec for an instruction without a meaning: no arm is left so. Safe. -/
  | notModelled (mnemonic : String)
  /-- Raised by ENCODE and DECODE when a written buffer shares a byte with another buffer of the command (R59, U3:
  "a model gives the command no meaning"). Safe: the machine stops. -/
  | overlappingBuffers
  /-- Raised by ENCODE, DECODE and the host's `ST` and `LD` when an access lies in a hole of the platform's memory
  (R62, U7); with the spec's default, no holes, never. Safe: the machine stops. -/
  | memoryHole
  /-- Raised by the host's `WR` and `RD` at a reserved or misaligned offset (R84, U5). Safe: the machine stops. -/
  | undefinedPort
  deriving DecidableEq, Repr

/-- The outcome of a step. -/
abbrev Result := Host.Outcome State Fault Refusal

/-- The state right after reset at power-up (R43, R230). `EXP`, `LOG` and the operand tables have no value in the spec:
`0` is the model's (logs 2 and 4, unsafe). `G` has no entry (log 3). Block memory lists nothing (log 5). The host has
made no move yet (log 1). -/
def State.reset : State where
  tables := ⟨Vector.replicate 256 0, Vector.replicate 256 0⟩
  tv := false
  gen := []
  dimN := 0
  dimK := 0
  mv := false
  err := .ok
  result := 0
  blksz := 0
  dptr := Vector.replicate 256 0
  fptr := Vector.replicate 256 0
  fidx := Vector.replicate 256 0
  eras := Vector.replicate 256 0
  mem := []
  pending := []
  reply := .nothing

end Sys2Proof.Machine
end

