-- ==== Sys2Proof/Machine/Ops.lean ====
section
/-! DEFINITION. The named operations over the state: the updates of its fields, block memory byte by byte (R53), and the
two ways a command ends, success and `raise` (R13, R213). -/

namespace Sys2Proof.Machine

/-! ### Updates of the state -/

/-- `STATUS.ERR <- e` (R26). -/
def State.setErr (s : State) (e : Err) : State := { s with err := e }

/-- `RESULT <- zext_32(v)` (R27). -/
def State.setResult (s : State) (v : Byte) : State := { s with result := v }

/-- `EXP` and `LOG` take the contents `t` and `STATUS.TV <- 1` (R100). -/
def State.setTables (s : State) (t : Tables) : State := { s with tables := t, tv := true }

/-- `G` takes the contents `g`, `N <- n`, `K <- k`, `STATUS.MV <- 1` (R130). -/
def State.setMatrix (s : State) (g : ByteMatrix) (n k : Nat) : State :=
  { s with gen := g, dimN := BitVec.ofNat 9 n, dimK := BitVec.ofNat 9 k, mv := true }

/-- Block memory becomes `m`. -/
def State.setMem (s : State) (m : Memory) : State := { s with mem := m }

/-- `BLKSZ <- v` (R28). -/
def State.setBlksz (s : State) (v : Word) : State := { s with blksz := v }

/-- Entry `i` of an operand table takes `v` (R31 to R34). -/
def State.setSlot (s : State) (t : OperandTable) (i : Fin 256) (v : Word) : State :=
  match t with
  | .dptr => { s with dptr := s.dptr.set i.val v i.isLt }
  | .fptr => { s with fptr := s.fptr.set i.val v i.isLt }
  | .fidx => { s with fidx := s.fidx.set i.val v i.isLt }
  | .eras => { s with eras := s.eras.set i.val v i.isLt }

/-- The host's moves not yet made become `ms`. -/
def State.setPending (s : State) (ms : List HostMove) : State := { s with pending := ms }

/-- The host's latest read returned `r`. -/
def State.setReply (s : State) (r : Reply) : State := { s with reply := r }

/-- An operand table (R31 to R34). -/
def State.operands (s : State) : OperandTable → Vector Word 256
  | .dptr => s.dptr
  | .fptr => s.fptr
  | .fidx => s.fidx
  | .eras => s.eras

/-! ### The end of a command -/

/-- The failure primitive of R13 and R213, the machine's one kind of exception: `STATUS.ERR` takes the code and nothing
else changes. There is no handler, no saved state and no return (R213, R214). -/
def raise (e : Err) (s : State) : Result := .next (s.setErr e)

/-- A command that reaches the end of its pseudocode: `STATUS.ERR <- OK` (R13). -/
def succeed (s : State) : Result := .next (s.setErr .ok)

/-- The error of the first check whose condition holds, in list order (R212: "the first failing check in the order its
pseudocode lists them"). -/
def firstError : List (Bool × Err) → Option Err
  | [] => none
  | (fails, e) :: rest => if fails then some e else firstError rest

/-- Make the checks in order, raise the error of the first that fails, else go on. -/
def guarded (checks : List (Bool × Err)) (s : State) (body : Result) : Result :=
  match firstError checks with
  | some e => raise e s
  | none => body

/-! ### Block memory -/

/-- The canonical form of block memory: addresses strictly rising and inside `MEM`, no entry equal to what an unlisted
address reads as. -/
abbrev Memory.wf (m : Memory) : Prop :=
  m.Pairwise (fun c d => c.1 < d.1) ∧ ∀ c ∈ m, c.1 < Config.memSize ∧ c.2 ≠ Config.unlistedByte

/-- `MemRead(addr, 1)` (R12, R53). -/
def Memory.read : Memory → Nat → Byte
  | [], _ => Config.unlistedByte
  | (b, u) :: m, a => if a < b then Config.unlistedByte else if a = b then u else Memory.read m a

/-- `MemWrite(addr, 1, v)` (R12, R53). Writing what an unlisted address reads as removes the entry. -/
def Memory.write : Memory → Nat → Byte → Memory
  | [], a, v => if v = Config.unlistedByte then [] else [(a, v)]
  | (b, u) :: m, a, v =>
    if a < b then if v = Config.unlistedByte then (b, u) :: m else (a, v) :: (b, u) :: m
    else if a = b then if v = Config.unlistedByte then m else (a, v) :: m
    else (b, u) :: Memory.write m a v

/-- Store bytes at `base`, `base + 1`, ... (R57: byte `x` of a buffer is at `ptr + x`). -/
def storeBytes (m : Memory) (base : Nat) : List Byte → Memory
  | [] => m
  | v :: vs => storeBytes (m.write base v) (base + 1) vs

/-- Store whole blocks, in list order, each at its base address. -/
def storeBlocks (m : Memory) : List (Nat × List Byte) → Memory
  | [] => m
  | (base, bytes) :: rest => storeBlocks (storeBytes m base bytes) rest

/-- Load `len` bytes from `base` (R86 `LD`). -/
def loadBytes (m : Memory) (base len : Nat) : List Byte :=
  (List.range len).map fun x => m.read (base + x)

/-! ### Address ranges -/

/-- The range `[p, p + len)` lies wholly inside `MEM`, as mathematical integers (R57). -/
abbrev insideMem (p len : Nat) : Prop := p + len ≤ Config.memSize

/-- The ranges `[p, p + lenP)` and `[q, q + lenQ)` share no byte. -/
abbrev rangesApart (p lenP q lenQ : Nat) : Prop := lenP = 0 ∨ lenQ = 0 ∨ p + lenP ≤ q ∨ q + lenQ ≤ p

/-- The range meets no hole of the platform's memory (R62, U7). -/
abbrev rangeValid (p len : Nat) : Prop := ∀ h ∈ Config.memHoles, rangesApart p len h.1 h.2

end Sys2Proof.Machine
end

