-- ==== Sys2Proof/Machine/Flags.lean ====
section
/-! DEFINITION. The status bits: the codes of `STATUS.ERR`, the `STATUS`, `RESULT` and `DIMS` words the host reads, and
the two checks that gate commands, `NOTINIT` and `NOMATRIX` (R26, R27, R29, R42, R201). -/

namespace Sys2Proof.Machine

/-- The 4-bit code of an outcome (R201). -/
def Err.code : Err → BitVec 4
  | .ok => 0
  | .config => 1
  | .insufficient => 2
  | .index => 3
  | .singular => 4
  | .divZero => 5
  | .notInit => 6
  | .noMatrix => 7
  | .illCmd => 8
  | .badBuf => 9

/-- `STATUS`: `TV` in bit 0, `MV` in bit 1, `ERR` in bits 11:8, zero elsewhere (R26). -/
def State.statusWord (s : State) : Word :=
  0#20 ++ s.err.code ++ 0#6 ++ BitVec.ofBool s.mv ++ BitVec.ofBool s.tv

/-- `RESULT`: the field element in bits 7:0, zero above (R27). -/
def State.resultWord (s : State) : Word := 0#24 ++ s.result

/-- `DIMS`: `K` in bits 8:0, `N` in bits 24:16, zero elsewhere; all zero while `MV = 0` (R29). -/
def State.dimsWord (s : State) : Word :=
  if s.mv then 0#7 ++ s.dimN ++ 0#7 ++ s.dimK else 0

/-- The check of every command but INIT: `NOTINIT` while `TV = 0` (R207). -/
def needsTables (s : State) : Bool × Err := (!s.tv, .notInit)

/-- The check of MATRD: `NOMATRIX` while `MV = 0` (R208). -/
def needsMatrix (s : State) : Bool × Err := (!s.mv, .noMatrix)

/-- The check of DECODE: `NOMATRIX` while `MV = 0` or when `k ≠ K` (R171 check 2, R208). -/
def needsMatrixK (s : State) (k : Nat) : Bool × Err := (!s.mv || decide (k ≠ s.dimK.toNat), .noMatrix)

/-- The check of ENCODE: `NOMATRIX` while `MV = 0`, when `k ≠ K` or when `m ≠ N - K` (R151, R208). The difference is that
of the mathematical integers (R10). -/
def needsMatrixKM (s : State) (k m : Nat) : Bool × Err :=
  (!s.mv || decide (k ≠ s.dimK.toNat) || decide (m + s.dimK.toNat ≠ s.dimN.toNat), .noMatrix)

end Sys2Proof.Machine
end

