-- ==== Sys2Proof/Machine/Operands.lean ====
section
/-! DEFINITION. The operands that do not travel in the command word: `BLKSZ`, the four operand tables, the block buffers
they address, and the register map (R28, R31 to R34, R57 to R59, R82). -/

namespace Sys2Proof.Machine

/-- Entry `i` of an operand table as an unsigned integer, the whole 32-bit value (R33, R34). A table has no entry from
256 on and no command asks for one while `N ≤ 256` (R25, R171 check 3). -/
def State.entry (s : State) (t : OperandTable) (i : Nat) : Nat := ((s.operands t).getD i 0).toNat

/-- Entries `0 .. count-1` of an operand table. -/
def State.entries (s : State) (t : OperandTable) (count : Nat) : List Nat :=
  (List.range count).map (s.entry t)

/-- `BLKSZ` as an unsigned integer: the length of every buffer of the command (R28, R57). -/
def State.blockSize (s : State) : Nat := s.blksz.toNat

/-- Every buffer at the given addresses lies inside `MEM` (R57); otherwise the command raises `BADBUF` (R210). -/
abbrev buffersInside (size : Nat) (ptrs : List Nat) : Prop := ∀ p ∈ ptrs, insideMem p size

/-- No buffer at the given addresses meets a hole of the platform's memory (R62, U7). -/
abbrev buffersValid (size : Nat) (ptrs : List Nat) : Prop := ∀ p ∈ ptrs, rangeValid p size

/-- The disjointness precondition of R59: no written buffer shares a byte with another written buffer or with a read
buffer. Read-only buffers may overlap. -/
abbrev buffersDisjoint (size : Nat) (written readOnly : List Nat) : Prop :=
  written.Pairwise (fun p q => rangesApart p size q size) ∧
    ∀ w ∈ written, ∀ r ∈ readOnly, rangesApart w size r size

/-- The register at a byte offset of the register port (R82); reserved and misaligned offsets are none (R84). -/
def regAt (offset : Nat) : Option Reg :=
  if offset % 4 ≠ 0 then none
  else if offset = 0x0000 then some .cmd
  else if offset = 0x0004 then some .status
  else if offset = 0x0008 then some .result
  else if offset = 0x000C then some .blksz
  else if offset = 0x0010 then some .dims
  else if offset < 0x0400 then none
  else if offset < 0x0800 then some (.slot .dptr (Fin.ofNat 256 ((offset - 0x0400) / 4)))
  else if offset < 0x0C00 then some (.slot .fptr (Fin.ofNat 256 ((offset - 0x0800) / 4)))
  else if offset < 0x1000 then some (.slot .fidx (Fin.ofNat 256 ((offset - 0x0C00) / 4)))
  else if offset < 0x1400 then some (.slot .eras (Fin.ofNat 256 ((offset - 0x1000) / 4)))
  else none

end Sys2Proof.Machine
end

