-- ==== Sys2Proof/Machine/Field.lean ====
section
/-! DEFINITION. The finite field GF(2^8) (40_gf256.md): the tables, `mul`, `div`, `inv`, and the commands INIT, GFMUL,
GFDIV, GFINV. -/

namespace Sys2Proof.Machine

/-! ### The tables -/

/-- `xtime(v)` of R101: multiplication by the primitive element. -/
def xtime (v : Byte) : Byte :=
  let t : BitVec 9 := v ++ 0#1
  if t.getLsbD 8 then (t ^^^ Config.poly).setWidth 8 else t.setWidth 8

/-- `v, xtime(v), xtime(xtime(v)), ...`, `count` elements: each entry of `EXP` is `xtime` of the one before (R100). -/
def powersFrom : Nat → Byte → List Byte
  | 0, _ => []
  | count + 1, v => v :: powersFrom count (xtime v)

theorem length_powersFrom (count : Nat) (v : Byte) : (powersFrom count v).length = count := by
  induction count generalizing v with
  | zero => rfl
  | succ n ih => simp [powersFrom, ih]

/-- `EXP` as INIT builds it: `EXP[0] = 0x01`, `EXP[i] = xtime(EXP[i-1])` for `i` in `1..255` (R21, R100). -/
def expTable : Vector Byte 256 := ⟨(powersFrom 256 1).toArray, by simp [length_powersFrom]⟩

/-- The assignments `LOG[e] <- i`, `LOG[e'] <- i + 1`, ... for the listed bytes `e, e', ...` (R102). -/
def assignLogs : List Byte → Nat → List Byte → List Byte
  | log, _, [] => log
  | log, i, e :: es => assignLogs (log.set e.toNat (BitVec.ofNat 8 i)) (i + 1) es

theorem length_assignLogs (log : List Byte) (i : Nat) (es : List Byte) :
    (assignLogs log i es).length = log.length := by
  induction es generalizing log i with
  | nil => rfl
  | cons e es ih => simp [assignLogs, ih]

/-- `LOG` as INIT builds it: `LOG[EXP[i]] <- i` for `i` in `0..254` over the old contents (R100, R102); `LOG[0x00]` is
never written and keeps what it held. -/
def logTable (old : Vector Byte 256) : Vector Byte 256 :=
  ⟨(assignLogs old.toList 0 (powersFrom Config.order 1)).toArray, by simp [length_assignLogs]⟩

/-- The contents of `EXP` and `LOG` after INIT. -/
def builtTables (old : Tables) : Tables := ⟨expTable, logTable old.log⟩

/-! ### The three pure functions -/

/-- `g^e = EXP[e mod 255]` (R14). -/
def Tables.power (t : Tables) (e : Nat) : Byte :=
  t.exp[e % Config.order]'(Nat.lt_of_lt_of_le (Nat.mod_lt e (by decide)) (by decide))

/-- `LOG[a]` of a nonzero byte (R22). -/
def Tables.logOf (t : Tables) (a : NonzeroByte) : Nat := (t.log[a.val.toNat]'a.val.isLt).toNat

/-- `mul(a, b)` of R104. -/
def Tables.mul (t : Tables) (a b : Byte) : Byte :=
  if ha : a = 0#8 then 0#8
  else if hb : b = 0#8 then 0#8
  else t.power (t.logOf ⟨a, ha⟩ + t.logOf ⟨b, hb⟩)

/-- `div(a, b)` of R105, for a nonzero divisor; a zero dividend gives zero. `LOG[a] - LOG[b] + 255` is summed so that no
intermediate is negative. -/
def Tables.div (t : Tables) (a : Byte) (b : NonzeroByte) : Byte :=
  if ha : a = 0#8 then 0#8
  else t.power (t.logOf ⟨a, ha⟩ + Config.order - t.logOf b)

/-- `inv(a)` of R106, for a nonzero byte. -/
def Tables.inv (t : Tables) (a : NonzeroByte) : Byte := t.power (Config.order - t.logOf a)

/-- A repeated `⊕`: `f 0 ⊕ f 1 ⊕ ... ⊕ f (n-1)`, the empty sum `0x00` (R14). -/
def xorSum (f : Nat → Byte) : Nat → Byte
  | 0 => 0#8
  | n + 1 => xorSum f n ^^^ f n

/-! ### The commands -/

/-- INIT (R100). -/
def execInit (s : State) : Result :=
  if s.tv then succeed s else succeed (s.setTables (builtTables s.tables))

/-- GFMUL (R107). -/
def execGfmul (a b : Byte) (s : State) : Result :=
  guarded [needsTables s] s (succeed (s.setResult (s.tables.mul a b)))

/-- GFDIV (R108): `DIVZERO` for a zero divisor, whatever the dividend. -/
def execGfdiv (a b : Byte) (s : State) : Result :=
  guarded [needsTables s] s <|
    if hb : b = 0#8 then raise .divZero s else succeed (s.setResult (s.tables.div a ⟨b, hb⟩))

/-- GFINV (R109): `DIVZERO` for zero. -/
def execGfinv (a : Byte) (s : State) : Result :=
  guarded [needsTables s] s <|
    if ha : a = 0#8 then raise .divZero s else succeed (s.setResult (s.tables.inv ⟨a, ha⟩))

end Sys2Proof.Machine
end

