-- ==== Sys2Proof/Machine/Generator.lean ====
section
/-! DEFINITION. The generator matrix (41_matrix.md): the identity block, the Cauchy parity rows, and the commands BUILD
and MATRD. -/

namespace Sys2Proof.Machine

/-- `G[r][c]` of a matrix held row by row; the entries outside its rows and columns hold no value and nothing asks for
them (R24). -/
def entryAt (g : ByteMatrix) (r c : Nat) : Byte := (g.getD r []).getD c 0

/-- `r xor c` on indices taken as 8-bit values (R14, R133). -/
def indexXor (r c : Nat) : Byte := BitVec.ofNat 8 r ^^^ BitVec.ofNat 8 c

/-- `r xor c` is never zero in a parity row, because `r ≥ k > c` (R133). -/
theorem indexXor_ne_zero {k r c : Nat} (hr : k ≤ r) (hc : c < k) (hn : r < 256) : indexXor r c ≠ 0#8 := by
  unfold indexXor
  intro h
  have h' := congrArg BitVec.toNat (BitVec.xor_eq_zero_iff.mp h)
  simp only [BitVec.toNat_ofNat] at h'
  omega

/-- Entry `(r, c)` of the matrix for `k` data blocks: the identity block (R132) and the parity rows (R133). -/
def generatorEntry (t : Tables) (k r c : Nat) (hc : c < k) (hr : r < 256) : Byte :=
  if h : r < k then if r = c then 1#8 else 0#8
  else t.inv ⟨indexXor r c, indexXor_ne_zero (Nat.le_of_not_lt h) hc hr⟩

/-- The generator matrix for `(n, k)` (R130). -/
def generatorMatrix (t : Tables) (n k : Nat) (hn : n ≤ 256) : ByteMatrix :=
  List.ofFn fun r : Fin n => List.ofFn fun c : Fin k =>
    generatorEntry t k r c c.isLt (Nat.lt_of_lt_of_le r.isLt hn)

/-- The pairs `(n, k)` BUILD accepts (R130, R202). -/
abbrev legalDims (n k : Nat) : Prop := 1 ≤ k ∧ k ≤ n ∧ n ≤ 256

/-- BUILD (R130). -/
def execBuild (n k : Nat) (s : State) : Result :=
  guarded [needsTables s] s <|
    if h : legalDims n k then succeed (s.setMatrix (generatorMatrix s.tables n k h.2.2) n k) else raise .config s

/-- MATRD (R136). -/
def execMatrd (row col : Nat) (s : State) : Result :=
  guarded [needsTables s, needsMatrix s, (decide (row ≥ s.dimN.toNat ∨ col ≥ s.dimK.toNat), .index)] s <|
    succeed (s.setResult (entryAt s.gen row col))

end Sys2Proof.Machine
end

