-- ==== Sys2Proof/Machine/Encoder.lean ====
section
/-! DEFINITION. The encoder (42_encode.md): the command ENCODE. -/

namespace Sys2Proof.Machine

/-- The data buffers `DPTR[0..k-1]` (R150). -/
def dataPtrs (s : State) (k : Nat) : List Nat := s.entries .dptr k

/-- The first `count` parity buffers `FPTR[0..count-1]` (R150, R170). -/
def parityPtrs (s : State) (count : Nat) : List Nat := s.entries .fptr count

/-- Byte `x` of parity block `i`: the sum of R152 over the bytes block memory held when the command started. -/
def parityByte (s : State) (k i x : Nat) : Byte :=
  xorSum (fun c => s.tables.mul (entryAt s.gen (k + i) c) (s.mem.read (s.entry .dptr c + x))) k

/-- Parity block `i`, `BLKSZ` bytes (R152). -/
def parityBlock (s : State) (k i : Nat) : List Byte := (List.range s.blockSize).map (parityByte s k i)

/-- The `m` parity blocks with the buffers they go to. -/
def parityBlocks (s : State) (k m : Nat) : List (Nat × List Byte) :=
  (List.range m).map fun i => (s.entry .fptr i, parityBlock s k i)

/-- The buffers ENCODE reads; with no parity block nothing is read (R58, R157 a). -/
def encodeReads (s : State) (k m : Nat) : List Nat := if m = 0 then [] else dataPtrs s k

/-- ENCODE (R150): the checks, then the sums, then the stores. Every byte is summed from the memory at the command's
start, which the disjointness precondition makes the same as the interleaved order (R64 d, R155). -/
def execEncode (k m : Nat) (s : State) : Result :=
  guarded
    [needsTables s, needsMatrixKM s k m,
      (decide (¬ buffersInside s.blockSize (dataPtrs s k)), .badBuf),
      (decide (¬ buffersInside s.blockSize (parityPtrs s m)), .badBuf)] s <|
    if ¬ buffersValid s.blockSize (parityPtrs s m ++ encodeReads s k m) then .refused .memoryHole
    else if ¬ buffersDisjoint s.blockSize (parityPtrs s m) (encodeReads s k m) then .refused .overlappingBuffers
    else succeed (s.setMem (storeBlocks s.mem (parityBlocks s k m)))

end Sys2Proof.Machine
end

