-- ==== Sys2Proof/Machine/Decoder.lean ====
section
/-! DEFINITION. The decoder (43_decode.md): the decode matrix, its Gauss-Jordan inversion, the reconstruction and the
command DECODE. -/

namespace Sys2Proof.Machine

/-! ### Selection and decode matrix (R172, R173) -/

/-- The `t < e` with `ERAS[t] = p`, when position `p` is erased. -/
def erasedSlot (s : State) (e p : Nat) : Option Nat := (List.range e).find? fun t => s.entry .eras t == p

/-- Row `p` of the `k` by `k` identity. -/
def unitRow (k p : Nat) : List Byte := (List.range k).map fun c => if p = c then 1#8 else 0#8

/-- The `k` by `k` identity. -/
def identityMatrix (k : Nat) : ByteMatrix := (List.range k).map (unitRow k)

/-- Row `p` of the decode matrix: the identity row of a surviving position, the generator row `FIDX[t]` of the position
`ERAS[t]` (R173). -/
def decodeRow (s : State) (k e p : Nat) : List Byte :=
  match erasedSlot s e p with
  | none => unitRow k p
  | some t => (List.range k).map (entryAt s.gen (s.entry .fidx t))

/-- The decode matrix `D` (R170 stages 1 and 2). -/
def decodeMatrix (s : State) (k e : Nat) : ByteMatrix := (List.range k).map (decodeRow s k e)

/-! ### Inversion (R174) -/

/-- The smallest row index in `r .. r + fuel - 1` whose entry in column `c` is nonzero, with that entry. -/
def findPivot (w : ByteMatrix) (c : Nat) : Nat → Nat → Option (Nat × NonzeroByte)
  | _, 0 => none
  | r, fuel + 1 =>
    if h : entryAt w r c = 0#8 then findPivot w c (r + 1) fuel else some (r, ⟨entryAt w r c, h⟩)

/-- Swap rows `r` and `c`. -/
def swapRows (w : ByteMatrix) (r c : Nat) : ByteMatrix := (w.set r (w.getD c [])).set c (w.getD r [])

/-- Divide row `c` by the pivot. -/
def scaleRow (t : Tables) (w : ByteMatrix) (c : Nat) (pivot : NonzeroByte) : ByteMatrix :=
  w.set c ((w.getD c []).map (t.div · pivot))

/-- `row ⊕ mul(f, pivotRow)`, element by element; a zero factor leaves the row as it is. -/
def addScaled (t : Tables) (f : Byte) (pivotRow row : List Byte) : List Byte :=
  if f = 0#8 then row else List.zipWith (fun y p => y ^^^ t.mul f p) row pivotRow

/-- Add to every row but row `c` its factor times row `c`. -/
def clearColumn (t : Tables) (factors : List Byte) (w : ByteMatrix) (c : Nat) : ByteMatrix :=
  w.mapIdx fun r row => if r = c then row else addScaled t (factors.getD r 0) (w.getD c []) row

/-- One round of the elimination, column `c` of a `k` by `k` pair `(W, V)`: find the pivot at or below the diagonal,
swap, normalise, eliminate from all other rows (R174). -/
def eliminateColumn (t : Tables) (k : Nat) (wv : ByteMatrix × ByteMatrix) (c : Nat) :
    Option (ByteMatrix × ByteMatrix) :=
  match findPivot wv.1 c c (k - c) with
  | none => none
  | some (r, pivot) =>
    let w := scaleRow t (swapRows wv.1 r c) c pivot
    let v := scaleRow t (swapRows wv.2 r c) c pivot
    let factors := w.map fun row => row.getD c 0
    some (clearColumn t factors w c, clearColumn t factors v c)

/-- `invert(D)` of a `k` by `k` matrix; none is the error `SINGULAR` (R174). -/
def invert (t : Tables) (k : Nat) (d : ByteMatrix) : Option ByteMatrix :=
  ((List.range k).foldlM (eliminateColumn t k) (d, identityMatrix k)).map (·.2)

/-! ### Reconstruction and write-back (R175, R177) -/

/-- The buffer position `c` is read from: the paired parity block when `c` is erased, else the data block (`src`, R170). -/
def sourcePtr (s : State) (e c : Nat) : Nat :=
  match erasedSlot s e c with
  | none => s.entry .dptr c
  | some u => s.entry .fptr u

/-- Byte `x` of the block recovered for position `p` (R175). -/
def recoveredByte (s : State) (v : ByteMatrix) (k e p x : Nat) : Byte :=
  xorSum (fun c => s.tables.mul (entryAt v p c) (s.mem.read (sourcePtr s e c + x))) k

/-- The block recovered for position `p`, `BLKSZ` bytes. -/
def recoveredBlock (s : State) (v : ByteMatrix) (k e p : Nat) : List Byte :=
  (List.range s.blockSize).map (recoveredByte s v k e p)

/-- The erased positions `ERAS[0..e-1]`. -/
def erasedPositions (s : State) (e : Nat) : List Nat := s.entries .eras e

/-- The `e` recovered blocks with the placeholders they go to, in the order of `ERAS`. -/
def recoveredBlocks (s : State) (v : ByteMatrix) (k e : Nat) : List (Nat × List Byte) :=
  (erasedPositions s e).map fun p => (s.entry .dptr p, recoveredBlock s v k e p)

/-- The placeholders DECODE writes (R58). -/
def decodeWrites (s : State) (e : Nat) : List Nat := (erasedPositions s e).map (s.entry .dptr)

/-- The buffers DECODE reads: the surviving data buffers and the first `e` parity buffers (R58). -/
def decodeReads (s : State) (k e : Nat) : List Nat :=
  (((List.range k).filter fun p => decide (p ∉ erasedPositions s e)).map (s.entry .dptr)) ++ parityPtrs s e

/-! ### The command -/

/-- Checks 1 to 8 of R171, in the order the engine makes them. `A > N - K` is the comparison of mathematical integers
(R10). -/
def decodeChecks (s : State) (k e a : Nat) : List (Bool × Err) :=
  [needsTables s, needsMatrixK s k,
    (decide (e > s.dimK.toNat ∨ a + s.dimK.toNat > s.dimN.toNat), .index),
    (decide (a < e), .insufficient),
    (decide (∃ p ∈ s.entries .eras e, p ≥ s.dimK.toNat), .index),
    (decide (¬ (s.entries .eras e).Nodup), .index),
    (decide (∃ r ∈ s.entries .fidx a, r < s.dimK.toNat ∨ r ≥ s.dimN.toNat), .index),
    (decide (¬ (s.entries .fidx a).Nodup), .index)]

/-- Check 9 of R171: every data buffer and the first `e` parity buffers lie inside `MEM` (R210). -/
def decodeBufferChecks (s : State) (e : Nat) : List (Bool × Err) :=
  [(decide (¬ buffersInside s.blockSize (dataPtrs s s.dimK.toNat)), .badBuf),
    (decide (¬ buffersInside s.blockSize (parityPtrs s e)), .badBuf)]

/-- Stages 4 and 5 with the finished inverse (R66: the inversion is complete before the multiply begins). All reads come
before all writes (R177). -/
def reconstruct (s : State) (v : ByteMatrix) (k e : Nat) : Result :=
  if ¬ buffersValid s.blockSize (decodeWrites s e ++ decodeReads s k e) then .refused .memoryHole
  else if ¬ buffersDisjoint s.blockSize (decodeWrites s e) (decodeReads s k e) then .refused .overlappingBuffers
  else succeed (s.setMem (storeBlocks s.mem (recoveredBlocks s v k e)))

/-- DECODE (R170). With no erasure it succeeds after checks 1 to 8 and touches nothing (R178 a). -/
def execDecode (k e a : Nat) (s : State) : Result :=
  guarded (decodeChecks s k e a) s <|
    if e = 0 then succeed s
    else guarded (decodeBufferChecks s e) s <|
      match invert s.tables k (decodeMatrix s k e) with
      | none => raise .singular s
      | some v => reconstruct s v k e

end Sys2Proof.Machine
end

