-- ==== Sys2Proof/Machine/Dispatch.lean ====
section
/-! DEFINITION. exec: one arm per command, one direct call of its meaning. -/

namespace Sys2Proof.Machine

/-- What a command does, by its meaning (30_encoding.md R72). -/
def exec (i : Instr) (s : State) : Host.Outcome State Fault Refusal :=
  match i with
  | .init => Sys2Proof.Machine.execInit s
  | .gfmul a b => Sys2Proof.Machine.execGfmul a b s
  | .gfdiv a b => Sys2Proof.Machine.execGfdiv a b s
  | .gfinv a => Sys2Proof.Machine.execGfinv a s
  | .build n k => Sys2Proof.Machine.execBuild n k s
  | .matrd row col => Sys2Proof.Machine.execMatrd row col s
  | .encode k m => Sys2Proof.Machine.execEncode k m s
  | .decode k e a => Sys2Proof.Machine.execDecode k e a s

end Sys2Proof.Machine
end

