-- ==== Sys2Proof/Machine/Port.lean ====
section
/-! DEFINITION. The host's moves: the register port (R82 to R84), block memory between commands (R86), the write of a
command word (R30, R81) and the platform's reset (R230). -/

namespace Sys2Proof.Machine

/-- The write of `w` to `CMD`: decode first, `ILLCMD` for a word that is no command, else the command to its end (R30,
R81). -/
def submit (w : Word) (s : State) : Result :=
  match decode w with
  | .ok i => exec i s
  | .error _ => raise .illCmd s

/-- A register-port write (R83): a read-only register ignores it. -/
def writeReg (r : Reg) (v : Word) (s : State) : Result :=
  match r with
  | .cmd => submit v s
  | .status => .next s
  | .result => .next s
  | .blksz => .next (s.setBlksz v)
  | .dims => .next s
  | .slot t i => .next (s.setSlot t i v)

/-- A register-port read (R83): `CMD` reads zero, an operand-table entry its last written value. -/
def readReg (r : Reg) (s : State) : Word :=
  match r with
  | .cmd => 0
  | .status => s.statusWord
  | .result => s.resultWord
  | .blksz => s.blksz
  | .dims => s.dimsWord
  | .slot t i => (s.operands t)[i]

/-- Access `len` bytes of block memory at `addr` for the host: inside `MEM` (R50) and in no hole (R62). -/
def hostAccess (addr len : Nat) (body : Result) : Result :=
  if ¬ insideMem addr len then .fault .outsideMem
  else if ¬ rangeValid addr len then .refused .memoryHole
  else body

/-- The platform's reset: the engine takes the state of R43; block memory is not changed (R230), and the host's own
moves and what it has read are no state of the engine. -/
def resetEngine (s : State) : State :=
  ((State.reset.setMem s.mem).setPending s.pending).setReply s.reply

/-- One move of the host (R243). -/
def hostMove (a : HostMove) (s : State) : Result :=
  match a with
  | .wr offset v =>
    match regAt offset with
    | some r => writeReg r v s
    | none => .refused .undefinedPort
  | .rd offset =>
    match regAt offset with
    | some r => .next (s.setReply (.word (readReg r s)))
    | none => .refused .undefinedPort
  | .st addr bytes => hostAccess addr bytes.length (.next (s.setMem (storeBytes s.mem addr bytes)))
  | .ld addr len => hostAccess addr len (.next (s.setReply (.bytes (loadBytes s.mem addr len))))
  | .reset => .next (resetEngine s)

/-- The next move of the run: the first pending move is made and is no longer pending (R241). With none left the engine
is idle and holds its state (R221). -/
def advance (s : State) : Result :=
  match s.pending with
  | [] => .next s
  | a :: rest => hostMove a (s.setPending rest)

/-- The host's next move is the write of the command word `w` to `CMD`. -/
def stageCommand (s : State) (w : Word) : State := s.setPending (.wr 0x0000 w :: s.pending)

end Sys2Proof.Machine
end

