-- ==== Sys2Proof/Machine/Step.lean ====
section
/-! DEFINITION. One step of the machine: one whole move of the host, a command included (R16, R64 a). -/

namespace Sys2Proof.Machine

/-- One step. -/
def step (s : State) : Host.Outcome State Fault Refusal := advance s

/-- The state in which the host's next move writes the command word whose bits are `w` (a command is one 32-bit word,
R70). The engine fetches nothing (R41): a command comes from the host's moves (log 1). -/
def State.withFetchWord (s : State) (nbits w : Nat) : State := stageCommand s (BitVec.ofNat 32 (w % 2 ^ nbits))

end Sys2Proof.Machine
end

