-- ==== Sys2Proof/Safety.lean ====
section
/-! DEFINITION. The terms claims are stated in: the invariant of the machine, the conditions under which ENCODE and
DECODE run, the bytes a command may write, the errors a command may raise, and the polynomial product. -/

namespace Sys2Proof.Machine

/-! ### The invariant -/

/-- The contents `EXP` and `LOG` have while `TV = 1` (R21, R22): `EXP[0] = 0x01`, each next entry is `xtime` of the one
before, and `LOG[EXP[i]] = i` for `i` in `0..254`. -/
abbrev tablesBuilt (t : Tables) : Prop :=
  t.exp[0] = 1 ∧ (∀ i : Fin 255, t.exp[i.val + 1] = xtime t.exp[i.val]) ∧
    ∀ i : Fin 255, t.log[(t.exp[i.val]).toNat]'(t.exp[i.val]).isLt = BitVec.ofNat 8 i.val

/-- `N`, `K` and `G` are the dimensions and the generator matrix of one legal `(n, k)` (R24, R25). -/
abbrev matrixBuilt (s : State) : Prop :=
  ∃ h : legalDims s.dimN.toNat s.dimK.toNat, s.gen = generatorMatrix s.tables s.dimN.toNat s.dimK.toNat h.2.2

/-- What holds of the engine and of block memory in every run: valid tables hold R21 and R22, a valid matrix is the one
R132 and R133 give and the tables are valid beside it, the dimensions are zero while there is no matrix (R43, R29), and
block memory is in its canonical form. -/
abbrev Invariant (s : State) : Prop :=
  (s.tv = true → tablesBuilt s.tables) ∧
    (s.mv = true → s.tv = true ∧ matrixBuilt s) ∧
    (s.mv = false → s.dimN = 0 ∧ s.dimK = 0) ∧
    s.mem.wf

/-! ### Buffers -/

/-- Address `a` is a byte of the buffer at `p` (R57). -/
abbrev inBuffer (size p a : Nat) : Prop := p ≤ a ∧ a < p + size

/-! ### When a command runs normally -/

/-- The conditions of R150, R151, R57 and R59 under which ENCODE completes: tables and matrix valid, the dimensions
those of the matrix, every buffer inside `MEM`, and the parity buffers disjoint from one another and from the data
buffers. -/
abbrev encodeReady (s : State) (k m : Nat) : Prop :=
  s.tv = true ∧ s.mv = true ∧ k = s.dimK.toNat ∧ m + k = s.dimN.toNat ∧
    (∀ c < k, s.entry .dptr c + s.blockSize ≤ Config.memSize) ∧
    (∀ i < m, s.entry .fptr i + s.blockSize ≤ Config.memSize) ∧
    (∀ i < m, ∀ j < i, rangesApart (s.entry .fptr j) s.blockSize (s.entry .fptr i) s.blockSize) ∧
    ∀ i < m, ∀ c < k, rangesApart (s.entry .fptr i) s.blockSize (s.entry .dptr c) s.blockSize

/-- Checks 1 to 8 of R171 all pass. -/
abbrev decodeIndicesLegal (s : State) (k e a : Nat) : Prop :=
  s.tv = true ∧ s.mv = true ∧ k = s.dimK.toNat ∧ e ≤ k ∧ a + k ≤ s.dimN.toNat ∧ e ≤ a ∧
    (∀ t < e, s.entry .eras t < k) ∧
    (∀ t < e, ∀ u < t, s.entry .eras t ≠ s.entry .eras u) ∧
    (∀ t < a, k ≤ s.entry .fidx t ∧ s.entry .fidx t < s.dimN.toNat) ∧
    ∀ t < a, ∀ u < t, s.entry .fidx t ≠ s.entry .fidx u

/-- Position `p` is erased: it is one of `ERAS[0..e-1]` (R172). -/
abbrev isErased (s : State) (e p : Nat) : Prop := ∃ t < e, s.entry .eras t = p

/-- Check 9 of R171 passes (R57, R210) and the placeholders are disjoint from one another, from the surviving data
buffers and from the parity buffers used (R58, R59). -/
abbrev decodeBuffersLegal (s : State) (k e : Nat) : Prop :=
  (∀ p < k, s.entry .dptr p + s.blockSize ≤ Config.memSize) ∧
    (∀ t < e, s.entry .fptr t + s.blockSize ≤ Config.memSize) ∧
    (∀ t < e, ∀ p < k, p ≠ s.entry .eras t →
      rangesApart (s.entry .dptr (s.entry .eras t)) s.blockSize (s.entry .dptr p) s.blockSize) ∧
    ∀ t < e, ∀ u < e, rangesApart (s.entry .dptr (s.entry .eras t)) s.blockSize (s.entry .fptr u) s.blockSize

/-- Every condition of a DECODE with at least one erasure but for the pivots of its elimination. -/
abbrev decodeReady (s : State) (k e a : Nat) : Prop :=
  1 ≤ e ∧ decodeIndicesLegal s k e a ∧ decodeBuffersLegal s k e

/-! ### Errors by command -/

/-- The errors a command can raise (the rows of R211). -/
def raisable : Instr → List Err
  | .init => []
  | .gfmul _ _ => [.notInit]
  | .gfdiv _ _ => [.notInit, .divZero]
  | .gfinv _ => [.notInit, .divZero]
  | .build _ _ => [.notInit, .config]
  | .matrd _ _ => [.notInit, .noMatrix, .index]
  | .encode _ _ => [.notInit, .noMatrix, .badBuf]
  | .decode _ _ _ => [.notInit, .noMatrix, .index, .insufficient, .badBuf, .singular]

/-! ### The polynomial product -/

/-- The carry-less product of R113 before its reduction: `a << i` for every set bit `i < count` of `b`. -/
def carrylessProduct (a b : Byte) : Nat → BitVec 15
  | 0 => 0
  | i + 1 => carrylessProduct a b i ^^^ if b.getLsbD i then a.setWidth 15 <<< i else 0

/-- The reduction of R113: from the highest of bits `8 .. 8 + count - 1` down, a set bit `8 + i` is removed by
`POLY << i`. -/
def reducePoly (r : BitVec 15) : Nat → BitVec 15
  | 0 => r
  | i + 1 => reducePoly (if r.getLsbD (8 + i) then r ^^^ (Config.poly.setWidth 15 <<< i) else r) i

/-- `pmul(a, b)` of R113: the product of polynomials over GF(2), reduced modulo `POLY`. -/
def pmul (a b : Byte) : Byte := (reducePoly (carrylessProduct a b 8) 7).setWidth 8

end Sys2Proof.Machine
end

