-- ==== Sys2Proof/Certificates/Slice0/Obligations.lean ====
section
/-! DEFINITION. The statements for the provers, each from a numbered rule of spec/. -/

open Sys2Proof Sys2Proof.Machine

/-! ### Encodings (30_encoding.md) -/

/-- R71, R72, R73: decoding the encoded word of any well-formed command gives the command back, every operand at every
value its field carries. -/
def Obligations.DecodeOfEncode : Prop :=
  ∀ i : Instr, wellFormed i = true → decode (encode i) = .ok i

/-- R71, R74, R80: a word that decodes is the encoding of the command it decodes to, which is well-formed. -/
def Obligations.EncodeOfDecode : Prop :=
  ∀ (w : Word) (i : Instr), decode w = .ok i → wellFormed i = true ∧ encode i = w

/-- R74: a word is the command of a row exactly when it matches the row under the row's mask, and it matches at most
one row. -/
def Obligations.LegalWordsMatchOneRow : Prop :=
  ∀ w : Word,
    (∀ i, decode w = .ok i → (rowMatch i, rowMask i) ∈ rows ∧ w &&& rowMask i = rowMatch i) ∧
      (∀ r ∈ rows, w &&& r.2 = r.1 → ∃ i, decode w = .ok i ∧ (rowMatch i, rowMask i) = r) ∧
      (rows.filter fun r => w &&& r.2 == r.1).length ≤ 1

/-- The worked encodings the spec derives from R71 and R72 (R75, "[derived: from rule R71 and rule R72]"), both ways.
-/
def Obligations.WorkedEncodings : Prop :=
  ∀ wi ∈ [((0x10000000 : Word), Instr.init), (0x20000280, .gfmul 0x02 0x80), (0x30000102, .gfdiv 0x01 0x02),
      (0x40000200, .gfinv 0x02), (0x50000C04, .build 6 4), (0x50020100, .build 256 256), (0x60000400, .matrd 4 0),
      (0x70000404, .encode 4 2), (0x80080404, .decode 4 2 2), (0x80040201, .decode 1 1 1)],
    decode wi.1 = .ok wi.2 ∧ encode wi.2 = wi.1

/-- R76, R77, R81, R209: the write of a word that matches no row of R74 sets `ERR` to `ILLCMD` and changes nothing
else, in every state, before INIT too. That the host's move is the next of the list `pending` is the model's own (log
1). -/
def Obligations.IllegalWordRaisesIllcmd : Prop :=
  ∀ (s : State) (w : Word) (rest : List HostMove), s.pending = .wr 0x0000 w :: rest →
    (∀ r ∈ rows, w &&& r.2 ≠ r.1) → step s = .next ((s.setPending rest).setErr .illCmd)

/-- R30, R70, R81: when the host's next move writes a word that decodes to `i`, the step is exec of `i` at the state
in which that move is no longer pending. The list `pending` is the model's own (log 1). -/
def Obligations.StepRunsDecodedCommand : Prop :=
  ∀ (s : State) (w : Word) (rest : List HostMove) (i : Instr), s.pending = .wr 0x0000 w :: rest →
    decode w = .ok i → step s = exec i (s.setPending rest)

/-! ### The field (40_gf256.md) -/

/-- R100: the first INIT builds the tables of R21 and R22, sets `TV` and `OK`, keeps `LOG[0x00]` and changes nothing
else; a later INIT changes nothing but `ERR`. -/
def Obligations.InitBuildsTables : Prop :=
  ∀ s : State,
    (s.tv = false → ∃ t : Tables, tablesBuilt t ∧ t.log[0] = s.tables.log[0] ∧
      exec .init s = .next ((s.setTables t).setErr .ok)) ∧
    (s.tv = true → exec .init s = .next (s.setErr .ok))

/-- R21, R22, R103: valid tables hold every nonzero byte exactly once in `EXP[0..254]`, `EXP[255] = 0x01`, `LOG[0x01]
= 0`, and `LOG` is in `0..254` and inverts `EXP` on the nonzero bytes. -/
def Obligations.TablesEnumerateTheField : Prop :=
  ∀ t : Tables, tablesBuilt t →
    (∀ i j : Fin 255, t.exp[i.val] = t.exp[j.val] → i = j) ∧ (∀ i : Fin 255, t.exp[i.val] ≠ 0#8) ∧ t.exp[255] = 1 ∧
      (∀ a : NonzeroByte, (a.val = 1 → t.logOf a = 0) ∧ t.logOf a < 255 ∧ t.exp.getD (t.logOf a) 0 = a.val)

/-- The laws of `mul`, `div` and `inv` the spec derives from R101 to R106 and R103 (R112, an inference of its own). -/
def Obligations.FieldLaws : Prop :=
  ∀ t : Tables, tablesBuilt t →
    (∀ a b c : Byte, t.mul a b = t.mul b a ∧ t.mul (t.mul a b) c = t.mul a (t.mul b c) ∧
      t.mul a (b ^^^ c) = t.mul a b ^^^ t.mul a c ∧ t.mul a 1 = a ∧ t.mul a 0 = 0#8 ∧
      (t.mul a b = 0#8 → a = 0#8 ∨ b = 0#8)) ∧
    ∀ (a : Byte) (b : NonzeroByte), t.mul (t.div a b) b.val = a ∧ t.div (t.mul a b.val) b = a ∧
      t.div a b = t.mul a (t.inv b) ∧ t.mul b.val (t.inv b) = 1 ∧
      (∃ h : t.inv b ≠ 0#8, t.inv ⟨t.inv b, h⟩ = b.val) ∧ t.div b.val b = 1

/-- R104, R107: GFMUL completes after INIT with `EXP[(LOG[a] + LOG[b]) mod 255]`, or `0x00` for a zero operand. -/
def Obligations.GfmulLooksUpTheSum : Prop :=
  ∀ (a b : Byte) (s : State), s.tv = true →
    exec (.gfmul a b) s = .next ((s.setResult (if a = 0#8 ∨ b = 0#8 then 0#8 else
      s.tables.exp.getD (((s.tables.log.getD a.toNat 0).toNat + (s.tables.log.getD b.toNat 0).toNat) % 255) 0)).setErr .ok)

/-- R107, and R113, which the spec derives from R101 and R104: with valid tables the element GFMUL leaves in `RESULT`
is the polynomial product. -/
def Obligations.GfmulIsThePolynomialProduct : Prop :=
  ∀ (a b : Byte) (s : State), s.tv = true → tablesBuilt s.tables →
    exec (.gfmul a b) s = .next ((s.setResult (pmul a b)).setErr .ok)

/-- R105, R108, R206: GFDIV completes after INIT for a nonzero divisor with `EXP[(LOG[a] - LOG[b] + 255) mod 255]`, or
`0x00` for a zero dividend; for a zero divisor it raises `DIVZERO`, whatever the dividend. -/
def Obligations.GfdivLooksUpTheDifference : Prop :=
  ∀ (a b : Byte) (s : State), s.tv = true →
    (b ≠ 0#8 → exec (.gfdiv a b) s = .next ((s.setResult (if a = 0#8 then 0#8 else
      s.tables.exp.getD (((s.tables.log.getD a.toNat 0).toNat + 255 - (s.tables.log.getD b.toNat 0).toNat) % 255) 0)).setErr .ok)) ∧
    (b = 0#8 → exec (.gfdiv a b) s = .next (s.setErr .divZero))

/-- R106, R109, R206: GFINV completes after INIT for a nonzero operand with `EXP[(255 - LOG[a]) mod 255]`; for zero it
raises `DIVZERO`. -/
def Obligations.GfinvLooksUpTheComplement : Prop :=
  ∀ (a : Byte) (s : State), s.tv = true →
    (a ≠ 0#8 → exec (.gfinv a) s = .next ((s.setResult
      (s.tables.exp.getD ((255 - (s.tables.log.getD a.toNat 0).toNat) % 255) 0)).setErr .ok)) ∧
    (a = 0#8 → exec (.gfinv a) s = .next (s.setErr .divZero))

/-- R109: "`GFINV` applied to its own result returns the original operand". -/
def Obligations.GfinvUndoesItself : Prop :=
  ∀ (a : Byte) (s : State), s.tv = true → tablesBuilt s.tables → a ≠ 0#8 →
    ∃ t u, exec (.gfinv a) s = .next t ∧ exec (.gfinv t.result) t = .next u ∧ u.result = a ∧ u.err = .ok

/-! ### The generator matrix (41_matrix.md) -/

/-- R130, R132, R133: BUILD of a legal `(n, k)` after INIT completes with `N`, `K`, `MV` and a matrix of `n` rows of
`k` entries: the identity block, and `inv(r xor c)` below it. -/
def Obligations.BuildFillsTheMatrix : Prop :=
  ∀ (n k : Nat) (s : State), s.tv = true → legalDims n k →
    ∃ g : ByteMatrix, exec (.build n k) s = .next ((s.setMatrix g n k).setErr .ok) ∧
      (s.setMatrix g n k).dimN.toNat = n ∧ (s.setMatrix g n k).dimK.toNat = k ∧
      g.length = n ∧ (∀ row ∈ g, row.length = k) ∧
      (∀ r < k, ∀ c < k, entryAt g r c = if r = c then 1#8 else 0#8) ∧
      ∀ r < n, k ≤ r → ∀ c < k, ∃ h : indexXor r c ≠ 0#8, entryAt g r c = s.tables.inv ⟨indexXor r c, h⟩

/-- R130, R202: BUILD with `k < 1`, `n < k` or `n > 256` after INIT raises `CONFIG` and keeps the matrix in place. -/
def Obligations.BuildRejectsIllegalDims : Prop :=
  ∀ (n k : Nat) (s : State), s.tv = true → (k < 1 ∨ n < k ∨ n > 256) →
    exec (.build n k) s = .next (s.setErr .config)

/-- R135, the part the spec derives from R133: the matrix for `(n, k)` is the first `n` rows of the matrix for every
`(n', k)` with `n' ≥ n`, and any two valid tables give the same matrix. -/
def Obligations.MatrixIsAPrefixOfTheLarger : Prop :=
  ∀ (t t' : Tables) (n n' k : Nat) (h : n ≤ 256) (h' : n' ≤ 256), tablesBuilt t → tablesBuilt t' → n ≤ n' →
    generatorMatrix t n k h = (generatorMatrix t' n' k h').take n

/-- No parity entry of a built matrix is `0x00` (R139, which the spec derives from R133). -/
def Obligations.ParityEntriesAreNonzero : Prop :=
  ∀ s : State, Invariant s → s.mv = true → ∀ r < s.dimN.toNat, s.dimK.toNat ≤ r → ∀ c < s.dimK.toNat, entryAt s.gen r c ≠ 0#8

/-- R131: every `k` of the `n` rows of the matrix, in any order, make an invertible decode matrix. -/
def Obligations.AnyKRowsAreInvertible : Prop :=
  ∀ (t : Tables) (n k : Nat) (h : legalDims n k), tablesBuilt t →
    ∀ rs : List Nat, rs.length = k → rs.Nodup → (∀ r ∈ rs, r < n) →
      (invert t k (rs.map fun r => (generatorMatrix t n k h.2.2).getD r [])).isSome

/-- R136, R204, R208: MATRD after INIT reads `G[row][col]` when the matrix is valid and the entry is in it, raises
`NOMATRIX` with no matrix, and `INDEX` for an entry outside it. -/
def Obligations.MatrdReadsOneEntry : Prop :=
  ∀ (row col : Nat) (s : State), s.tv = true →
    (s.mv = true → row < s.dimN.toNat → col < s.dimK.toNat →
      exec (.matrd row col) s = .next ((s.setResult (entryAt s.gen row col)).setErr .ok)) ∧
    (s.mv = false → exec (.matrd row col) s = .next (s.setErr .noMatrix)) ∧
    (s.mv = true → (s.dimN.toNat ≤ row ∨ s.dimK.toNat ≤ col) → exec (.matrd row col) s = .next (s.setErr .index))

/-! ### The encoder (42_encode.md) -/

/-- R152, R154: an ENCODE that is ready completes; byte `x` of parity buffer `i` takes the sum of R152 over the memory
at the start, every other byte of memory keeps its value, and no engine state but `ERR` changes. -/
def Obligations.EncodeWritesTheParitySums : Prop :=
  ∀ (k m : Nat) (s : State), s.mem.wf → encodeReady s k m →
    ∃ mem' : Memory, exec (.encode k m) s = .next ((s.setMem mem').setErr .ok) ∧
      (∀ i < m, ∀ x < s.blockSize, mem'.read (s.entry .fptr i + x) =
        xorSum (fun c => s.tables.mul (entryAt s.gen (k + i) c) (s.mem.read (s.entry .dptr c + x))) k) ∧
      ∀ a, (∀ i < m, ¬ inBuffer s.blockSize (s.entry .fptr i) a) → mem'.read a = s.mem.read a

/-- R151, R208, R210, R212: after INIT, ENCODE raises `NOMATRIX` when there is no matrix or its dimensions differ from
the command's, and otherwise `BADBUF` when a data or parity buffer leaves `MEM`. -/
def Obligations.EncodeChecksInOrder : Prop :=
  ∀ (k m : Nat) (s : State), s.tv = true →
    ((s.mv = false ∨ k ≠ s.dimK.toNat ∨ m + s.dimK.toNat ≠ s.dimN.toNat) →
      exec (.encode k m) s = .next (s.setErr .noMatrix)) ∧
    (s.mv = true → k = s.dimK.toNat → m + s.dimK.toNat = s.dimN.toNat →
      ((∃ c < k, s.entry .dptr c + s.blockSize > 2 ^ 32) ∨ ∃ i < m, s.entry .fptr i + s.blockSize > 2 ^ 32) →
      exec (.encode k m) s = .next (s.setErr .badBuf))

/-- R59 and the treatment `refuse` of U3, the model's refusal (log 10): an ENCODE whose checks pass and of which a
parity buffer shares a byte with another parity buffer or with a data buffer has no meaning. -/
def Obligations.EncodeRefusesOverlap : Prop :=
  ∀ (k m : Nat) (s : State), s.tv = true → s.mv = true → k = s.dimK.toNat → m + s.dimK.toNat = s.dimN.toNat →
    (∀ c < k, s.entry .dptr c + s.blockSize ≤ 2 ^ 32) → (∀ i < m, s.entry .fptr i + s.blockSize ≤ 2 ^ 32) →
    (∃ i < m, ∃ a, inBuffer s.blockSize (s.entry .fptr i) a ∧
      ((∃ j < i, inBuffer s.blockSize (s.entry .fptr j) a) ∨ ∃ c < k, inBuffer s.blockSize (s.entry .dptr c) a)) →
    exec (.encode k m) s = .refused .overlappingBuffers

/-- R157 (a), (b): with no parity block, or with `BLKSZ = 0`, ENCODE succeeds after its checks and no byte of memory
is written. -/
def Obligations.EmptyEncodeOnlySetsErr : Prop :=
  ∀ (k m : Nat) (s : State), s.tv = true → s.mv = true → k = s.dimK.toNat → m + s.dimK.toNat = s.dimN.toNat →
    ((m = 0 ∧ ∀ c < k, s.entry .dptr c + s.blockSize ≤ 2 ^ 32) ∨ s.blksz = 0) →
    exec (.encode k m) s = .next (s.setErr .ok)

/-- R157 (g), which the spec derives from R112: parity is linear in the data: the parity of the bytewise `⊕` of two
stripes is the `⊕` of their parities, and the parity of a scaled stripe is the scaled parity. -/
def Obligations.ParityIsLinear : Prop :=
  ∀ (t : Tables), tablesBuilt t → ∀ (coef d d' : Nat → Byte) (y : Byte) (k : Nat),
    xorSum (fun c => t.mul (coef c) (d c ^^^ d' c)) k =
        xorSum (fun c => t.mul (coef c) (d c)) k ^^^ xorSum (fun c => t.mul (coef c) (d' c)) k ∧
      xorSum (fun c => t.mul (coef c) (t.mul y (d c))) k = t.mul y (xorSum (fun c => t.mul (coef c) (d c)) k)

/-! ### The decoder (43_decode.md) -/

/-- R171: the checks of DECODE in the order the engine makes them, the error of each, and the success with no erasure
after check 8 (R178 a). -/
def Obligations.DecodeChecksInOrder : Prop :=
  ∀ (k e a : Nat) (s : State), exec (.decode k e a) s =
    if s.tv = false then .next (s.setErr .notInit)
    else if s.mv = false ∨ k ≠ s.dimK.toNat then .next (s.setErr .noMatrix)
    else if s.dimK.toNat < e ∨ s.dimN.toNat < a + s.dimK.toNat then .next (s.setErr .index)
    else if a < e then .next (s.setErr .insufficient)
    else if ∃ t < e, s.dimK.toNat ≤ s.entry .eras t then .next (s.setErr .index)
    else if ∃ t < e, ∃ u < t, s.entry .eras t = s.entry .eras u then .next (s.setErr .index)
    else if ∃ t < a, s.entry .fidx t < s.dimK.toNat ∨ s.dimN.toNat ≤ s.entry .fidx t then .next (s.setErr .index)
    else if ∃ t < a, ∃ u < t, s.entry .fidx t = s.entry .fidx u then .next (s.setErr .index)
    else if e = 0 then .next (s.setErr .ok)
    else if (∃ p < s.dimK.toNat, 2 ^ 32 < s.entry .dptr p + s.blockSize) ∨
        ∃ t < e, 2 ^ 32 < s.entry .fptr t + s.blockSize then .next (s.setErr .badBuf)
    else match invert s.tables k (decodeMatrix s k e) with
      | none => .next (s.setErr .singular)
      | some v => reconstruct s v k e

/-- R178 (a): with no erasure and legal indices DECODE completes with no effect but `ERR`, whatever `BLKSZ`, `DPTR`,
`FPTR` and `ERAS` hold. -/
def Obligations.DecodeWithoutErasures : Prop :=
  ∀ (k a : Nat) (s : State), decodeIndicesLegal s k 0 a → exec (.decode k 0 a) s = .next (s.setErr .ok)

/-- R173: row `p` of the decode matrix is `G[FIDX[t]]` when `p = ERAS[t]`, and the `p`-th standard basis vector when
`p` is not erased. -/
def Obligations.DecodeMatrixRows : Prop :=
  ∀ (k e : Nat) (s : State), (∀ t < e, ∀ u < t, s.entry .eras t ≠ s.entry .eras u) → ∀ p < k, ∀ c < k,
    (∀ t < e, s.entry .eras t = p → entryAt (decodeMatrix s k e) p c = entryAt s.gen (s.entry .fidx t) c) ∧
    (¬ isErased s e p → entryAt (decodeMatrix s k e) p c = if p = c then 1#8 else 0#8)

/-- R174: what the elimination returns is the two-sided inverse, and it raises `SINGULAR` only for a matrix that has
no left inverse. -/
def Obligations.InvertGivesTheInverse : Prop :=
  ∀ (t : Tables) (k : Nat) (d : ByteMatrix), tablesBuilt t → d.length = k → (∀ row ∈ d, row.length = k) →
    (∀ v, invert t k d = some v → ∀ r < k, ∀ c < k,
      xorSum (fun j => t.mul (entryAt v r j) (entryAt d j c)) k = (if r = c then 1#8 else 0#8) ∧
      xorSum (fun j => t.mul (entryAt d r j) (entryAt v j c)) k = (if r = c then 1#8 else 0#8)) ∧
    (invert t k d = none → ¬ ∃ f : Nat → Nat → Byte, ∀ r < k, ∀ c < k,
      xorSum (fun j => t.mul (f r j) (entryAt d j c)) k = if r = c then 1#8 else 0#8)

/-- R175, R177: a DECODE that is ready and whose elimination gives `V` completes; byte `x` of the placeholder of
erased position `p` takes the sum of R175 over the memory at the start, every other byte keeps its value, and no
engine state but `ERR` changes. -/
def Obligations.DecodeWritesTheRecoveredSums : Prop :=
  ∀ (k e a : Nat) (s : State) (v : ByteMatrix), s.mem.wf → decodeReady s k e a →
    invert s.tables k (decodeMatrix s k e) = some v →
    ∃ mem' : Memory, exec (.decode k e a) s = .next ((s.setMem mem').setErr .ok) ∧
      (∀ t < e, ∀ x < s.blockSize, mem'.read (s.entry .dptr (s.entry .eras t) + x) =
        xorSum (fun c => s.tables.mul (entryAt v (s.entry .eras t) c) (s.mem.read (sourcePtr s e c + x))) k) ∧
      ∀ b, (∀ t < e, ¬ inBuffer s.blockSize (s.entry .dptr (s.entry .eras t)) b) → mem'.read b = s.mem.read b

/-- R170 `src`, R172: position `c` is read from the paired parity buffer `FPTR[u]` when `c = ERAS[u]`, else from
`DPTR[c]`. -/
def Obligations.SourceOfAPosition : Prop :=
  ∀ (e c : Nat) (s : State), (∀ t < e, ∀ u < t, s.entry .eras t ≠ s.entry .eras u) →
    (∀ u < e, s.entry .eras u = c → sourcePtr s e c = s.entry .fptr u) ∧
    (¬ isErased s e c → sourcePtr s e c = s.entry .dptr c)

/-- R205, R134, R180: with a built matrix `SINGULAR` cannot occur: DECODE never leaves it in `ERR`, and one that is
ready completes with `OK`. -/
def Obligations.DecodeIsNeverSingular : Prop :=
  ∀ (k e a : Nat) (s : State), Invariant s →
    (∀ t, exec (.decode k e a) s = .next t → t.err ≠ .singular) ∧
    (decodeReady s k e a → ∃ t, exec (.decode k e a) s = .next t ∧ t.err = .ok)

/-- R180, the round trip, in the form the spec derives from R131, R152, R173, R174 and R175. With a built matrix, when
the surviving data buffers hold the original data `d` and each parity buffer used holds what ENCODE writes for its
row, DECODE completes and every placeholder ends as the original block. -/
def Obligations.DecodeRestoresTheOriginalData : Prop :=
  ∀ (k e a : Nat) (s : State) (d : Nat → Nat → Byte), Invariant s → decodeReady s k e a →
    (∀ c < k, ¬ isErased s e c → ∀ x < s.blockSize, s.mem.read (s.entry .dptr c + x) = d c x) →
    (∀ t < e, ∀ x < s.blockSize, s.mem.read (s.entry .fptr t + x) =
      xorSum (fun c => s.tables.mul (entryAt s.gen (s.entry .fidx t) c) (d c x)) k) →
    ∃ t, exec (.decode k e a) s = .next t ∧ t.err = .ok ∧
      ∀ c < k, ∀ x < s.blockSize, t.mem.read (s.entry .dptr c + x) = d c x

/-- R172: the parity buffers `FPTR[t]` with `t ≥ E` do not matter: DECODE with another address in such an entry does
the same. -/
def Obligations.SurplusParityIsIgnored : Prop :=
  ∀ (k e a : Nat) (s t : State) (j : Fin 256) (v : Word), e ≤ j.val → exec (.decode k e a) s = .next t →
    exec (.decode k e a) (s.setSlot .fptr j v) = .next (t.setSlot .fptr j v)

/-- R177: the prior contents of a placeholder never enter the result. -/
def Obligations.PlaceholderContentsDoNotMatter : Prop :=
  ∀ (k e a : Nat) (s t : State) (m : Memory), s.mem.wf → m.wf → decodeReady s k e a →
    (∀ b, (∀ j < e, ¬ inBuffer s.blockSize (s.entry .dptr (s.entry .eras j)) b) → m.read b = s.mem.read b) →
    exec (.decode k e a) s = .next t → t.err = .ok → exec (.decode k e a) (s.setMem m) = .next t

/-- R59 and the treatment `refuse` of U3, the model's refusal (log 10): a DECODE with at least one erasure whose checks
pass, whose elimination gives an inverse and of which the placeholder of `ERAS[t]` shares a byte with the buffer of another
data position (another placeholder or a surviving block) or with one of the first `E` parity buffers has no meaning. -/
def Obligations.DecodeRefusesOverlap : Prop :=
  ∀ (k e a : Nat) (s : State) (v : ByteMatrix), 1 ≤ e → decodeIndicesLegal s k e a →
    (∀ p < k, s.entry .dptr p + s.blockSize ≤ 2 ^ 32) → (∀ t < e, s.entry .fptr t + s.blockSize ≤ 2 ^ 32) →
    invert s.tables k (decodeMatrix s k e) = some v →
    (∃ t < e, ∃ b, inBuffer s.blockSize (s.entry .dptr (s.entry .eras t)) b ∧
      ((∃ p < k, p ≠ s.entry .eras t ∧ inBuffer s.blockSize (s.entry .dptr p) b) ∨
        ∃ u < e, inBuffer s.blockSize (s.entry .fptr u) b)) →
    exec (.decode k e a) s = .refused .overlappingBuffers

/-! ### All commands -/

/-- R207: every command but INIT raises `NOTINIT` while `TV = 0` and changes nothing else. -/
def Obligations.CommandsBeforeInitRaiseNotinit : Prop :=
  ∀ (i : Instr) (s : State), i ≠ .init → s.tv = false → exec i s = .next (s.setErr .notInit)

/-- R13, R213: a failing command changes nothing but `ERR`. -/
def Obligations.FailureChangesOnlyErr : Prop :=
  ∀ (i : Instr) (s t : State), exec i s = .next t → t.err ≠ .ok → t = s.setErr t.err

/-- R211: the errors each command can raise; `CONFIG` is BUILD's alone and `ILLCMD` no command's. -/
def Obligations.EachCommandRaisesItsOwnErrors : Prop :=
  ∀ (i : Instr) (s t : State), exec i s = .next t → t.err = .ok ∨ t.err ∈ raisable i

/-- R61: every command is idempotent: whatever a command answers, success or failure, issuing it again answers the
same state. -/
def Obligations.EveryCommandIsIdempotent : Prop :=
  ∀ (i : Instr) (s t : State), s.mem.wf → exec i s = .next t → exec i t = .next t

/-- R27, R39, R154, R243: what each command can change. INIT: the tables, `TV`, `ERR`. GFMUL, GFDIV, GFINV, MATRD:
`RESULT`, `ERR`. BUILD: `G`, `N`, `K`, `MV`, `ERR`. ENCODE, DECODE: block memory, `ERR`. Everything else, the host's
registers and moves among it, keeps its value. -/
def Obligations.CommandFrames : Prop :=
  ∀ (i : Instr) (s t : State), exec i s = .next t →
    match i with
    | .init => t = { s with tables := t.tables, tv := t.tv, err := t.err }
    | .gfmul _ _ => t = { s with result := t.result, err := t.err }
    | .gfdiv _ _ => t = { s with result := t.result, err := t.err }
    | .gfinv _ => t = { s with result := t.result, err := t.err }
    | .build _ _ => t = { s with gen := t.gen, dimN := t.dimN, dimK := t.dimK, mv := t.mv, err := t.err }
    | .matrd _ _ => t = { s with result := t.result, err := t.err }
    | .encode _ _ => t = { s with mem := t.mem, err := t.err }
    | .decode _ _ _ => t = { s with mem := t.mem, err := t.err }

/-- R58: every byte of memory outside the parity buffers of an ENCODE, and outside the placeholders of a DECODE, reads
after the command as before. -/
def Obligations.BytesOutsideTheWrittenBuffers : Prop :=
  ∀ (s t : State) (b : Nat), s.mem.wf →
    (∀ k m, exec (.encode k m) s = .next t → (∀ i < m, ¬ inBuffer s.blockSize (s.entry .fptr i) b) →
      t.mem.read b = s.mem.read b) ∧
    ∀ k e a, exec (.decode k e a) s = .next t →
      (∀ j < e, ¬ inBuffer s.blockSize (s.entry .dptr (s.entry .eras j)) b) → t.mem.read b = s.mem.read b

/-! ### The host's moves and reset (30_encoding.md section 4, 70_reset_and_hazards.md) -/

/-- R26, R201: `RD STATUS` returns `TV` in bit 0, `MV` in bit 1, the number R201 gives the outcome in bits 11:8 (0 to 9,
so codes 10 to 15 are never produced) and zero elsewhere, and changes nothing. What the read returns goes to `reply`, the
model's own (log 1). -/
def Obligations.StatusWordLayout : Prop :=
  ∀ (s : State) (rest : List HostMove), s.pending = .rd 0x0004 :: rest →
    ∃ w : Word, step s = .next ((s.setPending rest).setReply (.word w)) ∧
      slice w 0 0 = s.tv.toNat ∧ slice w 1 1 = s.mv.toNat ∧ slice w 7 2 = 0 ∧ slice w 31 12 = 0 ∧
      slice w 11 8 = match s.err with
        | .ok => 0
        | .config => 1
        | .insufficient => 2
        | .index => 3
        | .singular => 4
        | .divZero => 5
        | .notInit => 6
        | .noMatrix => 7
        | .illCmd => 8
        | .badBuf => 9

/-- R27, R29, R30: `RD RESULT` returns the byte with zero above it; `RD DIMS` returns `K` in bits 8:0 and `N` in bits
24:16 while `MV = 1`, and zero while `MV = 0`; `RD CMD` returns zero. No read changes anything but `reply`, the
model's own (log 1). -/
def Obligations.ReadOnlyWordLayouts : Prop :=
  ∀ (s : State) (off : Nat) (rest : List HostMove), s.pending = .rd off :: rest →
    off = 0x0000 ∨ off = 0x0008 ∨ off = 0x0010 →
    ∃ w : Word, step s = .next ((s.setPending rest).setReply (.word w)) ∧
      (off = 0x0000 → w = 0) ∧
      (off = 0x0008 → slice w 7 0 = s.result.toNat ∧ slice w 31 8 = 0) ∧
      (off = 0x0010 → s.mv = false → w = 0) ∧
      (off = 0x0010 → s.mv = true → slice w 8 0 = s.dimK.toNat ∧ slice w 15 9 = 0 ∧ slice w 24 16 = s.dimN.toNat ∧
        slice w 31 25 = 0)

/-- R83: a write to `STATUS`, `RESULT` or `DIMS` is ignored (the list `pending` is the model's own, log 1). -/
def Obligations.WritesToReadOnlyRegistersAreIgnored : Prop :=
  ∀ (s : State) (off : Nat) (v : Word) (rest : List HostMove), s.pending = .wr off v :: rest →
    off = 0x0004 ∨ off = 0x0008 ∨ off = 0x0010 → step s = .next (s.setPending rest)

/-- R28, R31 to R34, R82, R83: a write of `BLKSZ` or of an operand-table entry and a read of it return the whole word
written, and the state they leave is the one before with that one register changed: `u` names it for each offset of R82.
Every register at another offset reads as before. `pending` and `reply` are the model's own (log 1). -/
def Obligations.WrittenRegisterReadsBack : Prop :=
  ∀ (s u : State) (off : Nat) (v : Word) (rest : List HostMove), s.pending = .wr off v :: .rd off :: rest →
    ((off = 0x000C ∧ u = { s with blksz := v }) ∨
      ∃ i : Fin 256,
        (off = 0x0400 + 4 * i.val ∧ u = { s with dptr := s.dptr.set i.val v }) ∨
        (off = 0x0800 + 4 * i.val ∧ u = { s with fptr := s.fptr.set i.val v }) ∨
        (off = 0x0C00 + 4 * i.val ∧ u = { s with fidx := s.fidx.set i.val v }) ∨
        (off = 0x1000 + 4 * i.val ∧ u = { s with eras := s.eras.set i.val v })) →
    (∃ t, step s = .next t ∧ step t = .next { u with pending := rest, reply := .word v }) ∧
      ∀ off' r, regAt off' = some r → off' ≠ off → readReg r u = readReg r s

/-- R84 and the treatment `refuse` of U5, the model's refusal (log 12): a read or write at a reserved or misaligned
offset has no meaning; at every other offset a read has one. -/
def Obligations.ReservedOffsetsAreRefused : Prop :=
  ∀ (s : State) (off : Nat) (v : Word) (rest : List HostMove),
    ((off % 4 ≠ 0 ∨ (0x0014 ≤ off ∧ off < 0x0400) ∨ 0x1400 ≤ off) →
      (s.pending = .wr off v :: rest → step s = .refused .undefinedPort) ∧
      (s.pending = .rd off :: rest → step s = .refused .undefinedPort)) ∧
    (off % 4 = 0 → (off < 0x0014 ∨ (0x0400 ≤ off ∧ off < 0x1400)) → s.pending = .rd off :: rest →
      ∃ w, step s = .next ((s.setPending rest).setReply (.word w)))

/-- R50, R86: what the host stores it loads back, and a store leaves every other byte alone; a load inside `MEM` returns
the bytes of memory and changes nothing else. That an `ST` or an `LD` reaching beyond `MEM` faults is the model's choice
(log 11; `pending` and `reply`, log 1). -/
def Obligations.StoredBytesLoadBack : Prop :=
  ∀ (s : State) (addr : Nat) (rest : List HostMove), s.mem.wf →
    (∀ bs : List Byte, addr + bs.length ≤ 2 ^ 32 → s.pending = .st addr bs :: .ld addr bs.length :: rest →
      ∃ t u, step s = .next t ∧ step t = .next u ∧ u.reply = .bytes bs ∧
        ∀ b, (b < addr ∨ addr + bs.length ≤ b) → u.mem.read b = s.mem.read b) ∧
    (∀ bs : List Byte, 2 ^ 32 < addr + bs.length → s.pending = .st addr bs :: rest → step s = .fault .outsideMem) ∧
    (∀ len : Nat, addr + len ≤ 2 ^ 32 → s.pending = .ld addr len :: rest →
      step s = .next ((s.setPending rest).setReply (.bytes ((List.range len).map fun x => s.mem.read (addr + x))))) ∧
    ∀ len : Nat, 2 ^ 32 < addr + len → s.pending = .ld addr len :: rest → step s = .fault .outsideMem

/-- R43, R230: the platform's reset clears `TV`, `MV`, `ERR`, `RESULT`, `BLKSZ`, `N` and `K`, so that `STATUS`,
`RESULT`, `BLKSZ` and `DIMS` read zero, and does not change block memory. That reset is a move of the list `pending`,
and that the list survives it, is the model's own (log 1). -/
def Obligations.ResetClearsTheEngineAndKeepsMemory : Prop :=
  ∀ (s : State) (rest : List HostMove), s.pending = .reset :: rest →
    ∃ t, step s = .next t ∧ t.tv = false ∧ t.mv = false ∧ t.err = .ok ∧ t.result = 0 ∧ t.blksz = 0 ∧ t.dimN = 0 ∧
      t.dimK = 0 ∧ readReg .status t = 0 ∧ readReg .result t = 0 ∧ readReg .blksz t = 0 ∧ readReg .dims t = 0 ∧
      t.mem = s.mem ∧ t.pending = rest

/-- R221, R241: with no move of the host left (`pending` is the model's own, log 1) the engine is idle and holds its
state. -/
def Obligations.IdleEngineHoldsItsState : Prop :=
  ∀ s : State, s.pending = [] → step s = .next s

/-- R23, R25, R39: once valid, the tables change by no step but a reset; once valid, the matrix changes by no step but
a reset or a BUILD. -/
def Obligations.ValidTablesAndMatrixAreImmutable : Prop :=
  ∀ s t : State, step s = .next t → s.pending.head? ≠ some .reset →
    (s.tv = true → t.tv = true ∧ t.tables = s.tables) ∧
    (s.mv = true → (∀ w n k, s.pending.head? = some (.wr 0x0000 w) → decode w ≠ .ok (.build n k)) →
      t.mv = true ∧ t.gen = s.gen ∧ t.dimN = s.dimN ∧ t.dimK = s.dimK)

/-- R20 to R25, R43: every step keeps the invariant, whatever move the host makes. -/
def Obligations.EveryStepKeepsTheInvariant : Prop :=
  ∀ s t : State, Invariant s → step s = .next t → Invariant t

/-- R43: the invariant holds after reset. -/
def Obligations.ResetMeetsTheInvariant : Prop :=
  Invariant State.reset
end

