-- ==== Sys2Proof/Laws/State.lean ====
section
/-! SUPPORT. What each named update leaves in each field of the state, one lemma per field per update. -/

namespace Sys2Proof.Machine

variable (s : State)

/-! ### setErr -/

@[simp] theorem setErr_tables (e : Err) : (s.setErr e).tables = s.tables := rfl
@[simp] theorem setErr_tv (e : Err) : (s.setErr e).tv = s.tv := rfl
@[simp] theorem setErr_gen (e : Err) : (s.setErr e).gen = s.gen := rfl
@[simp] theorem setErr_dimN (e : Err) : (s.setErr e).dimN = s.dimN := rfl
@[simp] theorem setErr_dimK (e : Err) : (s.setErr e).dimK = s.dimK := rfl
@[simp] theorem setErr_mv (e : Err) : (s.setErr e).mv = s.mv := rfl
@[simp] theorem setErr_err (e : Err) : (s.setErr e).err = e := rfl
@[simp] theorem setErr_result (e : Err) : (s.setErr e).result = s.result := rfl
@[simp] theorem setErr_blksz (e : Err) : (s.setErr e).blksz = s.blksz := rfl
@[simp] theorem setErr_dptr (e : Err) : (s.setErr e).dptr = s.dptr := rfl
@[simp] theorem setErr_fptr (e : Err) : (s.setErr e).fptr = s.fptr := rfl
@[simp] theorem setErr_fidx (e : Err) : (s.setErr e).fidx = s.fidx := rfl
@[simp] theorem setErr_eras (e : Err) : (s.setErr e).eras = s.eras := rfl
@[simp] theorem setErr_mem (e : Err) : (s.setErr e).mem = s.mem := rfl
@[simp] theorem setErr_pending (e : Err) : (s.setErr e).pending = s.pending := rfl
@[simp] theorem setErr_reply (e : Err) : (s.setErr e).reply = s.reply := rfl

/-! ### setResult -/

@[simp] theorem setResult_tables (v : Byte) : (s.setResult v).tables = s.tables := rfl
@[simp] theorem setResult_tv (v : Byte) : (s.setResult v).tv = s.tv := rfl
@[simp] theorem setResult_gen (v : Byte) : (s.setResult v).gen = s.gen := rfl
@[simp] theorem setResult_dimN (v : Byte) : (s.setResult v).dimN = s.dimN := rfl
@[simp] theorem setResult_dimK (v : Byte) : (s.setResult v).dimK = s.dimK := rfl
@[simp] theorem setResult_mv (v : Byte) : (s.setResult v).mv = s.mv := rfl
@[simp] theorem setResult_err (v : Byte) : (s.setResult v).err = s.err := rfl
@[simp] theorem setResult_result (v : Byte) : (s.setResult v).result = v := rfl
@[simp] theorem setResult_blksz (v : Byte) : (s.setResult v).blksz = s.blksz := rfl
@[simp] theorem setResult_dptr (v : Byte) : (s.setResult v).dptr = s.dptr := rfl
@[simp] theorem setResult_fptr (v : Byte) : (s.setResult v).fptr = s.fptr := rfl
@[simp] theorem setResult_fidx (v : Byte) : (s.setResult v).fidx = s.fidx := rfl
@[simp] theorem setResult_eras (v : Byte) : (s.setResult v).eras = s.eras := rfl
@[simp] theorem setResult_mem (v : Byte) : (s.setResult v).mem = s.mem := rfl
@[simp] theorem setResult_pending (v : Byte) : (s.setResult v).pending = s.pending := rfl
@[simp] theorem setResult_reply (v : Byte) : (s.setResult v).reply = s.reply := rfl

/-! ### setTables -/

@[simp] theorem setTables_tables (t : Tables) : (s.setTables t).tables = t := rfl
@[simp] theorem setTables_tv (t : Tables) : (s.setTables t).tv = true := rfl
@[simp] theorem setTables_gen (t : Tables) : (s.setTables t).gen = s.gen := rfl
@[simp] theorem setTables_dimN (t : Tables) : (s.setTables t).dimN = s.dimN := rfl
@[simp] theorem setTables_dimK (t : Tables) : (s.setTables t).dimK = s.dimK := rfl
@[simp] theorem setTables_mv (t : Tables) : (s.setTables t).mv = s.mv := rfl
@[simp] theorem setTables_err (t : Tables) : (s.setTables t).err = s.err := rfl
@[simp] theorem setTables_result (t : Tables) : (s.setTables t).result = s.result := rfl
@[simp] theorem setTables_blksz (t : Tables) : (s.setTables t).blksz = s.blksz := rfl
@[simp] theorem setTables_dptr (t : Tables) : (s.setTables t).dptr = s.dptr := rfl
@[simp] theorem setTables_fptr (t : Tables) : (s.setTables t).fptr = s.fptr := rfl
@[simp] theorem setTables_fidx (t : Tables) : (s.setTables t).fidx = s.fidx := rfl
@[simp] theorem setTables_eras (t : Tables) : (s.setTables t).eras = s.eras := rfl
@[simp] theorem setTables_mem (t : Tables) : (s.setTables t).mem = s.mem := rfl
@[simp] theorem setTables_pending (t : Tables) : (s.setTables t).pending = s.pending := rfl
@[simp] theorem setTables_reply (t : Tables) : (s.setTables t).reply = s.reply := rfl

/-! ### setMatrix -/

@[simp] theorem setMatrix_tables (g : ByteMatrix) (n k : Nat) : (s.setMatrix g n k).tables = s.tables := rfl
@[simp] theorem setMatrix_tv (g : ByteMatrix) (n k : Nat) : (s.setMatrix g n k).tv = s.tv := rfl
@[simp] theorem setMatrix_gen (g : ByteMatrix) (n k : Nat) : (s.setMatrix g n k).gen = g := rfl
@[simp] theorem setMatrix_dimN (g : ByteMatrix) (n k : Nat) : (s.setMatrix g n k).dimN = BitVec.ofNat 9 n := rfl
@[simp] theorem setMatrix_dimK (g : ByteMatrix) (n k : Nat) : (s.setMatrix g n k).dimK = BitVec.ofNat 9 k := rfl
@[simp] theorem setMatrix_mv (g : ByteMatrix) (n k : Nat) : (s.setMatrix g n k).mv = true := rfl
@[simp] theorem setMatrix_err (g : ByteMatrix) (n k : Nat) : (s.setMatrix g n k).err = s.err := rfl
@[simp] theorem setMatrix_result (g : ByteMatrix) (n k : Nat) : (s.setMatrix g n k).result = s.result := rfl
@[simp] theorem setMatrix_blksz (g : ByteMatrix) (n k : Nat) : (s.setMatrix g n k).blksz = s.blksz := rfl
@[simp] theorem setMatrix_dptr (g : ByteMatrix) (n k : Nat) : (s.setMatrix g n k).dptr = s.dptr := rfl
@[simp] theorem setMatrix_fptr (g : ByteMatrix) (n k : Nat) : (s.setMatrix g n k).fptr = s.fptr := rfl
@[simp] theorem setMatrix_fidx (g : ByteMatrix) (n k : Nat) : (s.setMatrix g n k).fidx = s.fidx := rfl
@[simp] theorem setMatrix_eras (g : ByteMatrix) (n k : Nat) : (s.setMatrix g n k).eras = s.eras := rfl
@[simp] theorem setMatrix_mem (g : ByteMatrix) (n k : Nat) : (s.setMatrix g n k).mem = s.mem := rfl
@[simp] theorem setMatrix_pending (g : ByteMatrix) (n k : Nat) : (s.setMatrix g n k).pending = s.pending := rfl
@[simp] theorem setMatrix_reply (g : ByteMatrix) (n k : Nat) : (s.setMatrix g n k).reply = s.reply := rfl

/-! ### setMem -/

@[simp] theorem setMem_tables (m : Memory) : (s.setMem m).tables = s.tables := rfl
@[simp] theorem setMem_tv (m : Memory) : (s.setMem m).tv = s.tv := rfl
@[simp] theorem setMem_gen (m : Memory) : (s.setMem m).gen = s.gen := rfl
@[simp] theorem setMem_dimN (m : Memory) : (s.setMem m).dimN = s.dimN := rfl
@[simp] theorem setMem_dimK (m : Memory) : (s.setMem m).dimK = s.dimK := rfl
@[simp] theorem setMem_mv (m : Memory) : (s.setMem m).mv = s.mv := rfl
@[simp] theorem setMem_err (m : Memory) : (s.setMem m).err = s.err := rfl
@[simp] theorem setMem_result (m : Memory) : (s.setMem m).result = s.result := rfl
@[simp] theorem setMem_blksz (m : Memory) : (s.setMem m).blksz = s.blksz := rfl
@[simp] theorem setMem_dptr (m : Memory) : (s.setMem m).dptr = s.dptr := rfl
@[simp] theorem setMem_fptr (m : Memory) : (s.setMem m).fptr = s.fptr := rfl
@[simp] theorem setMem_fidx (m : Memory) : (s.setMem m).fidx = s.fidx := rfl
@[simp] theorem setMem_eras (m : Memory) : (s.setMem m).eras = s.eras := rfl
@[simp] theorem setMem_mem (m : Memory) : (s.setMem m).mem = m := rfl
@[simp] theorem setMem_pending (m : Memory) : (s.setMem m).pending = s.pending := rfl
@[simp] theorem setMem_reply (m : Memory) : (s.setMem m).reply = s.reply := rfl

/-! ### setBlksz -/

@[simp] theorem setBlksz_tables (v : Word) : (s.setBlksz v).tables = s.tables := rfl
@[simp] theorem setBlksz_tv (v : Word) : (s.setBlksz v).tv = s.tv := rfl
@[simp] theorem setBlksz_gen (v : Word) : (s.setBlksz v).gen = s.gen := rfl
@[simp] theorem setBlksz_dimN (v : Word) : (s.setBlksz v).dimN = s.dimN := rfl
@[simp] theorem setBlksz_dimK (v : Word) : (s.setBlksz v).dimK = s.dimK := rfl
@[simp] theorem setBlksz_mv (v : Word) : (s.setBlksz v).mv = s.mv := rfl
@[simp] theorem setBlksz_err (v : Word) : (s.setBlksz v).err = s.err := rfl
@[simp] theorem setBlksz_result (v : Word) : (s.setBlksz v).result = s.result := rfl
@[simp] theorem setBlksz_blksz (v : Word) : (s.setBlksz v).blksz = v := rfl
@[simp] theorem setBlksz_dptr (v : Word) : (s.setBlksz v).dptr = s.dptr := rfl
@[simp] theorem setBlksz_fptr (v : Word) : (s.setBlksz v).fptr = s.fptr := rfl
@[simp] theorem setBlksz_fidx (v : Word) : (s.setBlksz v).fidx = s.fidx := rfl
@[simp] theorem setBlksz_eras (v : Word) : (s.setBlksz v).eras = s.eras := rfl
@[simp] theorem setBlksz_mem (v : Word) : (s.setBlksz v).mem = s.mem := rfl
@[simp] theorem setBlksz_pending (v : Word) : (s.setBlksz v).pending = s.pending := rfl
@[simp] theorem setBlksz_reply (v : Word) : (s.setBlksz v).reply = s.reply := rfl

/-! ### setPending -/

@[simp] theorem setPending_tables (ms : List HostMove) : (s.setPending ms).tables = s.tables := rfl
@[simp] theorem setPending_tv (ms : List HostMove) : (s.setPending ms).tv = s.tv := rfl
@[simp] theorem setPending_gen (ms : List HostMove) : (s.setPending ms).gen = s.gen := rfl
@[simp] theorem setPending_dimN (ms : List HostMove) : (s.setPending ms).dimN = s.dimN := rfl
@[simp] theorem setPending_dimK (ms : List HostMove) : (s.setPending ms).dimK = s.dimK := rfl
@[simp] theorem setPending_mv (ms : List HostMove) : (s.setPending ms).mv = s.mv := rfl
@[simp] theorem setPending_err (ms : List HostMove) : (s.setPending ms).err = s.err := rfl
@[simp] theorem setPending_result (ms : List HostMove) : (s.setPending ms).result = s.result := rfl
@[simp] theorem setPending_blksz (ms : List HostMove) : (s.setPending ms).blksz = s.blksz := rfl
@[simp] theorem setPending_dptr (ms : List HostMove) : (s.setPending ms).dptr = s.dptr := rfl
@[simp] theorem setPending_fptr (ms : List HostMove) : (s.setPending ms).fptr = s.fptr := rfl
@[simp] theorem setPending_fidx (ms : List HostMove) : (s.setPending ms).fidx = s.fidx := rfl
@[simp] theorem setPending_eras (ms : List HostMove) : (s.setPending ms).eras = s.eras := rfl
@[simp] theorem setPending_mem (ms : List HostMove) : (s.setPending ms).mem = s.mem := rfl
@[simp] theorem setPending_pending (ms : List HostMove) : (s.setPending ms).pending = ms := rfl
@[simp] theorem setPending_reply (ms : List HostMove) : (s.setPending ms).reply = s.reply := rfl

/-! ### setReply -/

@[simp] theorem setReply_tables (r : Reply) : (s.setReply r).tables = s.tables := rfl
@[simp] theorem setReply_tv (r : Reply) : (s.setReply r).tv = s.tv := rfl
@[simp] theorem setReply_gen (r : Reply) : (s.setReply r).gen = s.gen := rfl
@[simp] theorem setReply_dimN (r : Reply) : (s.setReply r).dimN = s.dimN := rfl
@[simp] theorem setReply_dimK (r : Reply) : (s.setReply r).dimK = s.dimK := rfl
@[simp] theorem setReply_mv (r : Reply) : (s.setReply r).mv = s.mv := rfl
@[simp] theorem setReply_err (r : Reply) : (s.setReply r).err = s.err := rfl
@[simp] theorem setReply_result (r : Reply) : (s.setReply r).result = s.result := rfl
@[simp] theorem setReply_blksz (r : Reply) : (s.setReply r).blksz = s.blksz := rfl
@[simp] theorem setReply_dptr (r : Reply) : (s.setReply r).dptr = s.dptr := rfl
@[simp] theorem setReply_fptr (r : Reply) : (s.setReply r).fptr = s.fptr := rfl
@[simp] theorem setReply_fidx (r : Reply) : (s.setReply r).fidx = s.fidx := rfl
@[simp] theorem setReply_eras (r : Reply) : (s.setReply r).eras = s.eras := rfl
@[simp] theorem setReply_mem (r : Reply) : (s.setReply r).mem = s.mem := rfl
@[simp] theorem setReply_pending (r : Reply) : (s.setReply r).pending = s.pending := rfl
@[simp] theorem setReply_reply (r : Reply) : (s.setReply r).reply = r := rfl

/-! ### setSlot -/

@[simp] theorem setSlot_tables (t : OperandTable) (i : Fin 256) (v : Word) : (s.setSlot t i v).tables = s.tables := by cases t <;> rfl
@[simp] theorem setSlot_tv (t : OperandTable) (i : Fin 256) (v : Word) : (s.setSlot t i v).tv = s.tv := by cases t <;> rfl
@[simp] theorem setSlot_gen (t : OperandTable) (i : Fin 256) (v : Word) : (s.setSlot t i v).gen = s.gen := by cases t <;> rfl
@[simp] theorem setSlot_dimN (t : OperandTable) (i : Fin 256) (v : Word) : (s.setSlot t i v).dimN = s.dimN := by cases t <;> rfl
@[simp] theorem setSlot_dimK (t : OperandTable) (i : Fin 256) (v : Word) : (s.setSlot t i v).dimK = s.dimK := by cases t <;> rfl
@[simp] theorem setSlot_mv (t : OperandTable) (i : Fin 256) (v : Word) : (s.setSlot t i v).mv = s.mv := by cases t <;> rfl
@[simp] theorem setSlot_err (t : OperandTable) (i : Fin 256) (v : Word) : (s.setSlot t i v).err = s.err := by cases t <;> rfl
@[simp] theorem setSlot_result (t : OperandTable) (i : Fin 256) (v : Word) : (s.setSlot t i v).result = s.result := by cases t <;> rfl
@[simp] theorem setSlot_blksz (t : OperandTable) (i : Fin 256) (v : Word) : (s.setSlot t i v).blksz = s.blksz := by cases t <;> rfl
@[simp] theorem setSlot_mem (t : OperandTable) (i : Fin 256) (v : Word) : (s.setSlot t i v).mem = s.mem := by cases t <;> rfl
@[simp] theorem setSlot_pending (t : OperandTable) (i : Fin 256) (v : Word) : (s.setSlot t i v).pending = s.pending := by cases t <;> rfl
@[simp] theorem setSlot_reply (t : OperandTable) (i : Fin 256) (v : Word) : (s.setSlot t i v).reply = s.reply := by cases t <;> rfl

@[simp] theorem setSlot_operands_self (t : OperandTable) (i : Fin 256) (v : Word) :
    (s.setSlot t i v).operands t = (s.operands t).set i.val v i.isLt := by cases t <;> rfl

theorem setSlot_operands_of_ne {t u : OperandTable} (h : u ≠ t) (i : Fin 256) (v : Word) :
    (s.setSlot t i v).operands u = s.operands u := by cases t <;> cases u <;> first | rfl | exact absurd rfl h

/-! ### The operands a command reads are the fields they come from -/

@[simp] theorem setErr_operands (e : Err) (u : OperandTable) : (s.setErr e).operands u = s.operands u := by cases u <;> rfl
@[simp] theorem setErr_entry (e : Err) (u : OperandTable) (j : Nat) : (s.setErr e).entry u j = s.entry u j := by simp [State.entry]
@[simp] theorem setErr_blockSize (e : Err) : (s.setErr e).blockSize = s.blockSize := rfl
@[simp] theorem setResult_operands (v : Byte) (u : OperandTable) : (s.setResult v).operands u = s.operands u := by cases u <;> rfl
@[simp] theorem setResult_entry (v : Byte) (u : OperandTable) (j : Nat) : (s.setResult v).entry u j = s.entry u j := by simp [State.entry]
@[simp] theorem setResult_blockSize (v : Byte) : (s.setResult v).blockSize = s.blockSize := rfl
@[simp] theorem setTables_operands (t : Tables) (u : OperandTable) : (s.setTables t).operands u = s.operands u := by cases u <;> rfl
@[simp] theorem setTables_entry (t : Tables) (u : OperandTable) (j : Nat) : (s.setTables t).entry u j = s.entry u j := by simp [State.entry]
@[simp] theorem setTables_blockSize (t : Tables) : (s.setTables t).blockSize = s.blockSize := rfl
@[simp] theorem setMatrix_operands (g : ByteMatrix) (n k : Nat) (u : OperandTable) : (s.setMatrix g n k).operands u = s.operands u := by cases u <;> rfl
@[simp] theorem setMatrix_entry (g : ByteMatrix) (n k : Nat) (u : OperandTable) (j : Nat) : (s.setMatrix g n k).entry u j = s.entry u j := by simp [State.entry]
@[simp] theorem setMatrix_blockSize (g : ByteMatrix) (n k : Nat) : (s.setMatrix g n k).blockSize = s.blockSize := rfl
@[simp] theorem setMem_operands (m : Memory) (u : OperandTable) : (s.setMem m).operands u = s.operands u := by cases u <;> rfl
@[simp] theorem setMem_entry (m : Memory) (u : OperandTable) (j : Nat) : (s.setMem m).entry u j = s.entry u j := by simp [State.entry]
@[simp] theorem setMem_blockSize (m : Memory) : (s.setMem m).blockSize = s.blockSize := rfl
@[simp] theorem setBlksz_operands (v : Word) (u : OperandTable) : (s.setBlksz v).operands u = s.operands u := by cases u <;> rfl
@[simp] theorem setBlksz_entry (v : Word) (u : OperandTable) (j : Nat) : (s.setBlksz v).entry u j = s.entry u j := by simp [State.entry]
@[simp] theorem setPending_operands (ms : List HostMove) (u : OperandTable) : (s.setPending ms).operands u = s.operands u := by cases u <;> rfl
@[simp] theorem setPending_entry (ms : List HostMove) (u : OperandTable) (j : Nat) : (s.setPending ms).entry u j = s.entry u j := by simp [State.entry]
@[simp] theorem setPending_blockSize (ms : List HostMove) : (s.setPending ms).blockSize = s.blockSize := rfl
@[simp] theorem setReply_operands (r : Reply) (u : OperandTable) : (s.setReply r).operands u = s.operands u := by cases u <;> rfl
@[simp] theorem setReply_entry (r : Reply) (u : OperandTable) (j : Nat) : (s.setReply r).entry u j = s.entry u j := by simp [State.entry]
@[simp] theorem setReply_blockSize (r : Reply) : (s.setReply r).blockSize = s.blockSize := rfl
@[simp] theorem setSlot_blockSize (t : OperandTable) (i : Fin 256) (v : Word) :
    (s.setSlot t i v).blockSize = s.blockSize := by cases t <;> rfl

/-! ### Updates that meet -/

@[simp] theorem setErr_setErr (e e' : Err) : (s.setErr e).setErr e' = s.setErr e' := rfl
@[simp] theorem setMem_setMem (m m' : Memory) : (s.setMem m).setMem m' = s.setMem m' := rfl
@[simp] theorem setPending_setPending (a b : List HostMove) : (s.setPending a).setPending b = s.setPending b := rfl
theorem setErr_setMem (e : Err) (m : Memory) : (s.setErr e).setMem m = (s.setMem m).setErr e := rfl
theorem setErr_setResult (e : Err) (v : Byte) : (s.setErr e).setResult v = (s.setResult v).setErr e := rfl
theorem setErr_setPending (e : Err) (ms : List HostMove) : (s.setErr e).setPending ms = (s.setPending ms).setErr e := rfl
@[simp] theorem setErr_self : s.setErr s.err = s := rfl
@[simp] theorem setMem_self : s.setMem s.mem = s := rfl
@[simp] theorem setResult_self : s.setResult s.result = s := rfl

end Sys2Proof.Machine
end

