-- ==== Sys2Proof/Laws/Ops.lean ====
section
/-! SUPPORT. What `raise`, `succeed` and `guarded` can answer (R13, R212, R213). -/

namespace Sys2Proof.Machine

@[simp] theorem raise_eq (e : Err) (s : State) : raise e s = .next (s.setErr e) := rfl

@[simp] theorem succeed_eq (s : State) : succeed s = .next (s.setErr .ok) := rfl

@[simp] theorem firstError_nil : firstError [] = none := rfl

@[simp] theorem firstError_cons (b : Bool) (e : Err) (rest : List (Bool × Err)) :
    firstError ((b, e) :: rest) = if b then some e else firstError rest := rfl

/-- No check fails exactly when every condition is false. -/
theorem firstError_eq_none_iff (checks : List (Bool × Err)) :
    firstError checks = none ↔ ∀ c ∈ checks, c.1 = false := by
  induction checks with
  | nil => simp
  | cons c rest ih =>
    obtain ⟨b, e⟩ := c
    cases b <;> simp [ih]

/-- The error raised is the error of one of the checks. -/
theorem firstError_mem {checks : List (Bool × Err)} {e : Err} (h : firstError checks = some e) :
    (true, e) ∈ checks := by
  induction checks with
  | nil => simp at h
  | cons c rest ih =>
    obtain ⟨b, e'⟩ := c
    cases b <;> simp_all

theorem guarded_of_none {checks : List (Bool × Err)} (h : firstError checks = none) (s : State) (body : Result) :
    guarded checks s body = body := by simp [guarded, h]

theorem guarded_of_some {checks : List (Bool × Err)} {e : Err} (h : firstError checks = some e) (s : State)
    (body : Result) : guarded checks s body = .next (s.setErr e) := by simp [guarded, h]

@[simp] theorem guarded_nil (s : State) (body : Result) : guarded [] s body = body := rfl

/-- One check at a time. -/
theorem guarded_cons (b : Bool) (e : Err) (rest : List (Bool × Err)) (s : State) (body : Result) :
    guarded ((b, e) :: rest) s body = if b then .next (s.setErr e) else guarded rest s body := by
  cases b <;> simp [guarded]

/-- Everything `guarded` can answer: the error of one of its checks with nothing else changed, or its body when no
check fails. -/
theorem guarded_cases (checks : List (Bool × Err)) (s : State) (body : Result) :
    (∃ e, (true, e) ∈ checks ∧ guarded checks s body = .next (s.setErr e)) ∨
      (firstError checks = none ∧ guarded checks s body = body) := by
  cases h : firstError checks with
  | none => exact .inr ⟨rfl, guarded_of_none h s body⟩
  | some e => exact .inl ⟨e, firstError_mem h, guarded_of_some h s body⟩

end Sys2Proof.Machine
end

