-- ==== Sys2Proof/Laws/Field.lean ====
section
/-! SUPPORT. The field tables: what INIT builds meets R21 and R22, and tables that meet them are fixed but for
`LOG[0x00]`. -/

namespace Sys2Proof.Machine

/-- Entry `i` of the powers is the `i`-fold `xtime`. -/
theorem getElem_powersFrom (count : Nat) (v : Byte) (i : Nat) (h : i < (powersFrom count v).length) :
    (powersFrom count v)[i] = xtime^[i] v := by
  induction count generalizing v i with
  | zero => simp [powersFrom] at h
  | succ n ih =>
    cases i with
    | zero => rfl
    | succ i => simpa [powersFrom] using ih (xtime v) i (by simpa [powersFrom] using h)

@[simp] theorem getElem_expTable (i : Nat) (h : i < 256) : expTable[i] = xtime^[i] 1 := by
  simpa [expTable] using getElem_powersFrom 256 1 i (by simpa [length_powersFrom] using h)

/-- `xtime` of a nonzero byte is nonzero. -/
theorem xtime_ne_zero : ∀ v : Byte, v ≠ 0#8 → xtime v ≠ 0#8 := by decide +kernel

/-- A power of `g` is nonzero. -/
theorem power_ne_zero (e : Nat) : xtime^[e] 1 ≠ 0#8 := by
  induction e with
  | zero => decide
  | succ e ih =>
    rw [Function.iterate_succ_apply']
    exact xtime_ne_zero _ ih

/-- A power by the powers themselves, for evaluation. -/
theorem power_eq_getD {e : Nat} (he : e < 256) : xtime^[e] 1 = (powersFrom 256 1).getD e 0 := by
  have h : e < (powersFrom 256 1).length := by simpa [length_powersFrom] using he
  rw [List.getD_eq_getElem _ _ h, getElem_powersFrom]

/-- The powers come back to `0x01` after 255 (R103). -/
theorem power_cycle : xtime^[255] 1 = 1 := by
  rw [power_eq_getD (by decide)]
  decide +kernel

/-- `g` has order 255: its powers do not come back at 15, 51 or 85, and every smaller divisor of 255 divides one of
these (R103). -/
theorem minimalPeriod_xtime : Function.minimalPeriod xtime 1 = 255 := by
  have hd : Function.minimalPeriod xtime 1 ∣ 255 := Function.IsPeriodicPt.minimalPeriod_dvd power_cycle
  have hno : ∀ m ∈ [15, 51, 85], ¬ Function.minimalPeriod xtime 1 ∣ m := by
    intro m hm hdm
    have hp : xtime^[m] 1 = 1 := Function.isPeriodicPt_iff_minimalPeriod_dvd.mpr hdm
    simp only [List.mem_cons, List.not_mem_nil, or_false] at hm
    rcases hm with rfl | rfl | rfl <;> rw [power_eq_getD (by decide)] at hp <;> revert hp <;> decide +kernel
  have hm : Function.minimalPeriod xtime 1 ∈ Nat.divisors 255 := Nat.mem_divisors.mpr ⟨hd, by decide⟩
  have key : ∀ d ∈ Nat.divisors 255, (¬ d ∣ 15) → (¬ d ∣ 51) → (¬ d ∣ 85) → d = 255 := by decide +kernel
  exact key _ hm (hno 15 (by simp)) (hno 51 (by simp)) (hno 85 (by simp))

/-- The first 255 powers are distinct (R103). -/
theorem power_inj {i j : Nat} (hi : i < 255) (hj : j < 255) (h : xtime^[i] 1 = xtime^[j] 1) : i = j := by
  rw [← minimalPeriod_xtime] at hi hj
  exact Function.iterate_injOn_Iio_minimalPeriod hi hj h

theorem nodup_powers : ((powersFrom 255 1).map BitVec.toNat).Nodup := by
  refine List.Nodup.map (fun _ _ => BitVec.eq_of_toNat_eq) (List.nodup_iff_injective_getElem.mpr fun i j h => ?_)
  have hi := i.isLt
  have hj := j.isLt
  simp only [length_powersFrom] at hi hj
  simp only [getElem_powersFrom] at h
  exact Fin.ext (power_inj hi hj h)

/-- Every nonzero byte is one of the first 255 powers (R21). -/
theorem exists_power (a : Byte) (ha : a ≠ 0#8) : ∃ i, i < 255 ∧ xtime^[i] 1 = a := by
  let f : Fin 256 → Fin 256 := fun i => if i.val = 255 then 0 else (xtime^[i.val] 1).toFin
  have hne : ∀ i, (xtime^[i] 1).toFin ≠ (0 : Fin 256) := fun i h =>
    power_ne_zero i (BitVec.eq_of_toNat_eq (congrArg Fin.val h))
  have hf : Function.Injective f := by
    intro i j h
    by_cases hi : i.val = 255 <;> by_cases hj : j.val = 255
    · exact Fin.ext (hi.trans hj.symm)
    · exact absurd (by simpa [f, hi, hj] using h.symm) (hne j.val)
    · exact absurd (by simpa [f, hi, hj] using h) (hne i.val)
    · have hij : (xtime^[i.val] 1).toFin = (xtime^[j.val] 1).toFin := by simpa [f, hi, hj] using h
      exact Fin.ext (power_inj (by omega) (by omega) (BitVec.eq_of_toNat_eq (congrArg Fin.val hij)))
  obtain ⟨i, hi⟩ := Finite.surjective_of_injective hf a.toFin
  by_cases h255 : i.val = 255
  · exact absurd (BitVec.eq_of_toNat_eq (congrArg Fin.val (by simpa [f, h255] using hi.symm))) ha
  · exact ⟨i.val, by omega, BitVec.eq_of_toNat_eq (congrArg Fin.val (by simpa [f, h255] using hi))⟩

/-- An assignment to other entries leaves an entry alone. -/
theorem getElem_assignLogs_of_notMem (es : List Byte) (log : List Byte) (i j : Nat)
    (hj : j < (assignLogs log i es).length) (h : j ∉ es.map BitVec.toNat) :
    (assignLogs log i es)[j] = log[j]'(by simpa [length_assignLogs] using hj) := by
  induction es generalizing log i with
  | nil => rfl
  | cons e es ih =>
    simp only [List.map_cons, List.mem_cons, not_or] at h
    exact (ih (log.set e.toNat (BitVec.ofNat 8 i)) (i + 1) hj h.2).trans (by simp [Ne.symm h.1])

/-- The entry of the listed byte number `j` takes the exponent `i + j`. -/
theorem getElem_assignLogs (es : List Byte) (log : List Byte) (i j : Nat) (hj : j < es.length)
    (hd : (es.map BitVec.toNat).Nodup) (hl : (es[j]).toNat < (assignLogs log i es).length) :
    (assignLogs log i es)[(es[j]).toNat] = BitVec.ofNat 8 (i + j) := by
  induction es generalizing log i j with
  | nil => simp at hj
  | cons e es ih =>
    simp only [List.map_cons, List.nodup_cons] at hd
    cases j with
    | zero =>
      exact (getElem_assignLogs_of_notMem es (log.set e.toNat (BitVec.ofNat 8 i)) (i + 1) e.toNat hl hd.1).trans
        (by simp)
    | succ j =>
      have hj' : j < es.length := by simpa using hj
      exact (ih (log.set e.toNat (BitVec.ofNat 8 i)) (i + 1) j hj' hd.2 hl).trans
        (by rw [Nat.add_assoc, Nat.add_comm 1 j])

/-- What INIT builds meets R21 and R22, whatever the tables held. -/
theorem tablesBuilt_builtTables (old : Tables) : tablesBuilt (builtTables old) := by
  refine ⟨by simp [builtTables], fun i => ?_, fun i => ?_⟩
  · simp only [builtTables, getElem_expTable]
    exact Function.iterate_succ_apply' xtime i.val 1
  · have hi : i.val < (powersFrom 255 1).length := by simp [length_powersFrom]
    have := getElem_assignLogs (powersFrom 255 1) old.log.toList 0 i.val hi nodup_powers
      (by simpa [length_assignLogs] using ((powersFrom 255 1)[i.val]).isLt)
    rw [Nat.zero_add] at this
    simp only [getElem_powersFrom] at this
    simpa [builtTables, logTable, Config.order] using this

/-- INIT writes every entry of `LOG` but `LOG[0x00]` (R22, R102). -/
theorem logTable_zero (old : Vector Byte 256) : (logTable old)[0] = old[0] := by
  have h0 : (0 : Nat) ∉ (powersFrom 255 1).map BitVec.toNat := by decide +kernel
  have := getElem_assignLogs_of_notMem (powersFrom 255 1) old.toList 0 0 (by simp [length_assignLogs]) h0
  simpa [logTable, Config.order] using this

/-- Valid tables have one `EXP` (R21). -/
theorem getElem_exp_of_built {t : Tables} (h : tablesBuilt t) (i : Nat) (hi : i < 256) : t.exp[i] = xtime^[i] 1 := by
  induction i with
  | zero => exact h.1
  | succ i ih =>
    have := h.2.1 ⟨i, by omega⟩
    rw [this, ih (by omega)]
    exact (Function.iterate_succ_apply' xtime i 1).symm

theorem power_add_cycle (e : Nat) : xtime^[e + 255] 1 = xtime^[e] 1 := by
  rw [Function.iterate_add_apply, power_cycle]

/-- `g^e` depends on `e` modulo 255 only. -/
theorem power_mod (e : Nat) : xtime^[e % 255] 1 = xtime^[e] 1 := by
  conv => rhs; rw [← Nat.mod_add_div e 255]
  generalize e / 255 = q
  induction q with
  | zero => rfl
  | succ q ih => rw [Nat.mul_succ, ← Nat.add_assoc, power_add_cycle, ih]

/-- `g^e` of valid tables (R14). -/
theorem Tables.power_of_built {t : Tables} (h : tablesBuilt t) (e : Nat) : t.power e = xtime^[e] 1 := by
  rw [Tables.power, getElem_exp_of_built h]
  exact power_mod e

/-- `LOG[g^i] = i` for `i` in `0..254` (R22). -/
theorem Tables.logOf_power {t : Tables} (h : tablesBuilt t) {i : Nat} (hi : i < 255) (a : NonzeroByte)
    (ha : xtime^[i] 1 = a.val) : t.logOf a = i := by
  have h2 := h.2.2 ⟨i, hi⟩
  have h3 := getElem_exp_of_built h i (by omega)
  have h4 : t.exp[i] = a.val := h3.trans ha
  simp only [h4] at h2
  rw [Tables.logOf, h2, BitVec.toNat_ofNat]
  omega

/-- `LOG[a]` is in `0..254` for every nonzero byte (R22). -/
theorem Tables.logOf_lt {t : Tables} (h : tablesBuilt t) (a : NonzeroByte) : t.logOf a < 255 := by
  obtain ⟨i, hi, he⟩ := exists_power a.val a.2
  rw [Tables.logOf_power h hi a he]
  exact hi

/-- `EXP[LOG[a]] = a` for every nonzero byte (R22). -/
theorem Tables.power_logOf {t : Tables} (h : tablesBuilt t) (a : NonzeroByte) : xtime^[t.logOf a] 1 = a.val := by
  obtain ⟨i, hi, he⟩ := exists_power a.val a.2
  rw [Tables.logOf_power h hi a he]
  exact he

/-- Any two valid tables agree on every logarithm. -/
theorem Tables.logOf_eq_of_built {t t' : Tables} (h : tablesBuilt t) (h' : tablesBuilt t') (a : NonzeroByte) :
    t.logOf a = t'.logOf a := by
  obtain ⟨i, hi, he⟩ := exists_power a.val a.2
  rw [Tables.logOf_power h hi a he, Tables.logOf_power h' hi a he]

/-- Valid tables are one but for `LOG[0x00]` (R21, R22). -/
theorem Tables.ext_of_built {t t' : Tables} (h : tablesBuilt t) (h' : tablesBuilt t') (h0 : t.log[0] = t'.log[0]) :
    t = t' := by
  obtain ⟨e, l⟩ := t
  obtain ⟨e', l'⟩ := t'
  congr 1
  · exact Vector.ext fun i hi => (getElem_exp_of_built h i hi).trans (getElem_exp_of_built h' i hi).symm
  · refine Vector.ext fun i hi => ?_
    rcases Nat.eq_zero_or_pos i with rfl | hpos
    · exact h0
    · have ha : BitVec.ofNat 8 i ≠ 0#8 := fun hc => by
        have := congrArg BitVec.toNat hc
        simp only [BitVec.toNat_ofNat] at this
        omega
      have := Tables.logOf_eq_of_built h h' ⟨BitVec.ofNat 8 i, ha⟩
      simp only [Tables.logOf, BitVec.toNat_ofNat, Nat.mod_eq_of_lt hi] at this
      exact BitVec.eq_of_toNat_eq this

end Sys2Proof.Machine
end

