-- ==== Sys2Proof/Laws/Operands.lean ====
section
/-! SUPPORT. The operand tables and the buffers they address: entries by index, ranges, and the register map (R31 to R34,
R57, R59, R62, R82). -/

namespace Sys2Proof.Machine

/-- An operand-table entry is a 32-bit value. -/
theorem entry_lt (s : State) (t : OperandTable) (i : Nat) : s.entry t i < 2 ^ 32 := (s.operands t |>.getD i 0).isLt

theorem mem_entries {s : State} {t : OperandTable} {n v : Nat} : v ∈ s.entries t n ↔ ∃ i < n, s.entry t i = v := by
  simp [State.entries]

theorem length_entries (s : State) (t : OperandTable) (n : Nat) : (s.entries t n).length = n := by simp [State.entries]

/-- A pairwise relation over the entries `0 .. n-1`, by index. -/
theorem pairwise_entries {s : State} {t : OperandTable} {n : Nat} {R : Nat → Nat → Prop} :
    (s.entries t n).Pairwise R ↔ ∀ i < n, ∀ j < i, R (s.entry t j) (s.entry t i) := by
  rw [State.entries, List.pairwise_map, List.pairwise_iff_getElem]
  simp only [List.length_range, List.getElem_range]
  exact ⟨fun h i hi j hj => h j i (by omega) hi hj, fun h j i _ hi hj => h i hi j hj⟩

/-- The entries `0 .. n-1` are distinct. -/
theorem nodup_entries {s : State} {t : OperandTable} {n : Nat} :
    (s.entries t n).Nodup ↔ ∀ i < n, ∀ j < i, s.entry t i ≠ s.entry t j := by
  rw [List.Nodup, pairwise_entries]
  exact forall₂_congr fun i _ => forall₂_congr fun j _ => ne_comm

/-- The bounds check of a table's first `n` buffers, by index (R57). -/
theorem buffersInside_entries {s : State} {t : OperandTable} {n size : Nat} :
    buffersInside size (s.entries t n) ↔ ∀ i < n, s.entry t i + size ≤ Config.memSize := by
  simp [buffersInside, mem_entries, insideMem]

/-- With the spec's default, no holes, every range is valid (R62). -/
@[simp] theorem rangeValid_default (p len : Nat) : rangeValid p len := by simp [rangeValid, Config.memHoles]

@[simp] theorem buffersValid_default (size : Nat) (ptrs : List Nat) : buffersValid size ptrs :=
  fun p _ => rangeValid_default p size

/-- A range that shares a byte with another is not apart from it. -/
theorem not_rangesApart_of_inBoth {p q size a : Nat} (hp : p ≤ a ∧ a < p + size) (hq : q ≤ a ∧ a < q + size) :
    ¬ rangesApart p size q size := by
  simp only [rangesApart]
  omega

/-! ### The register map -/

/-- What one branch of the register map answers, and whether it answers. -/
theorem someOr_eq {c : Prop} [Decidable c] {x r : Reg} {o : Option Reg} :
    (if c then some x else o) = some r ↔ (c ∧ x = r) ∨ (¬ c ∧ o = some r) := by by_cases h : c <;> simp [h]
theorem noneOr_eq {c : Prop} [Decidable c] {r : Reg} {o : Option Reg} :
    (if c then none else o) = some r ↔ ¬ c ∧ o = some r := by by_cases h : c <;> simp [h]
theorem someOr_isSome {c : Prop} [Decidable c] {x : Reg} {o : Option Reg} :
    (if c then some x else o).isSome = true ↔ c ∨ o.isSome = true := by by_cases h : c <;> simp [h]
theorem noneOr_isSome {c : Prop} [Decidable c] {o : Option Reg} :
    (if c then none else o).isSome = true ↔ ¬ c ∧ o.isSome = true := by by_cases h : c <;> simp [h]

/-- The register map answers exactly the offsets of R82 that R84 does not reserve. -/
theorem regAt_isSome_iff (off : Nat) :
    (regAt off).isSome ↔ off % 4 = 0 ∧ (off < 0x0014 ∨ (0x0400 ≤ off ∧ off < 0x1400)) := by
  simp only [regAt, someOr_isSome, noneOr_isSome, Option.isSome_none, Bool.false_eq_true, or_false]
  constructor <;> intro h <;> omega

/-- Each operand table's offset (R82). -/
def slotBase : OperandTable → Nat
  | .dptr => 0x0400
  | .fptr => 0x0800
  | .fidx => 0x0C00
  | .eras => 0x1000

/-- Entry `i` of a table is at its table's offset plus `4 * i` (R82). -/
theorem regAt_slot (t : OperandTable) (i : Fin 256) : regAt (slotBase t + 4 * i.val) = some (.slot t i) := by
  revert i
  cases t <;> decide +kernel

/-- A register's offset: the inverse of the register map. -/
def offsetOf : Reg → Nat
  | .cmd => 0x0000
  | .status => 0x0004
  | .result => 0x0008
  | .blksz => 0x000C
  | .dims => 0x0010
  | .slot t i => slotBase t + 4 * i.val

theorem regAt_offsetOf (r : Reg) : regAt (offsetOf r) = some r := by
  cases r with
  | slot t i => exact regAt_slot t i
  | _ => rfl

/-- Two offsets of one register are one offset. -/
theorem offset_of_regAt {off : Nat} {r : Reg} (h : regAt off = some r) : off = offsetOf r := by
  simp only [regAt, someOr_eq, noneOr_eq] at h
  obtain ⟨h4, h⟩ := h
  rcases h with ⟨h, rfl⟩ | ⟨-, ⟨h, rfl⟩ | ⟨-, ⟨h, rfl⟩ | ⟨-, ⟨h, rfl⟩ | ⟨-, ⟨h, rfl⟩ | ⟨-, hlo, h⟩⟩⟩⟩⟩
  · exact h
  · exact h
  · exact h
  · exact h
  · exact h
  rcases h with ⟨h, rfl⟩ | ⟨h1, ⟨h, rfl⟩ | ⟨h2, ⟨h, rfl⟩ | ⟨h3, ⟨h, rfl⟩ | ⟨-, h⟩⟩⟩⟩
  on_goal 5 => cases h
  all_goals
    simp only [offsetOf, slotBase, Fin.ofNat]
    omega

end Sys2Proof.Machine
end

