-- ==== Sys2Proof/Laws/Generator.lean ====
section
/-! SUPPORT. Matrices by entry: the identity, the generator matrix, the decode matrix and the position a block is read
from (R132, R133, R170, R173). -/

namespace Sys2Proof.Machine

/-- An entry of a matrix given row by row over a range. -/
theorem entryAt_map_range (f : Nat → List Byte) {n r : Nat} (c : Nat) (hr : r < n) :
    entryAt ((List.range n).map f) r c = (f r).getD c 0 := by simp [entryAt, List.getD, hr]

theorem getD_map_range (f : Nat → Byte) {n c : Nat} (hc : c < n) : ((List.range n).map f).getD c 0 = f c := by
  simp [List.getD, hc]

/-- The standard basis vector. -/
theorem getD_unitRow {k p c : Nat} (hc : c < k) : (unitRow k p).getD c 0 = if p = c then 1#8 else 0#8 := by
  rw [unitRow, getD_map_range _ hc]

theorem entryAt_identityMatrix {k r c : Nat} (hr : r < k) (hc : c < k) :
    entryAt (identityMatrix k) r c = if r = c then 1#8 else 0#8 := by
  rw [identityMatrix, entryAt_map_range _ _ hr, getD_unitRow hc]

theorem length_generatorMatrix (t : Tables) (n k : Nat) (hn : n ≤ 256) : (generatorMatrix t n k hn).length = n := by
  simp [generatorMatrix]

theorem length_row_generatorMatrix {t : Tables} {n k : Nat} {hn : n ≤ 256} {row : List Byte}
    (h : row ∈ generatorMatrix t n k hn) : row.length = k := by
  simp only [generatorMatrix, List.mem_ofFn] at h
  obtain ⟨r, rfl⟩ := h
  simp

/-- Every entry of the generator matrix (R130). -/
theorem entryAt_generatorMatrix (t : Tables) {n k r c : Nat} (hn : n ≤ 256) (hr : r < n) (hc : c < k) :
    entryAt (generatorMatrix t n k hn) r c = generatorEntry t k r c hc (Nat.lt_of_lt_of_le hr hn) := by
  simp [entryAt, generatorMatrix, List.getD, hr, hc]

/-- The identity block (R132). -/
theorem generatorEntry_identity (t : Tables) {k r c : Nat} (hc : c < k) (hr : r < 256) (h : r < k) :
    generatorEntry t k r c hc hr = if r = c then 1#8 else 0#8 := by simp [generatorEntry, h]

/-- The parity rows (R133). -/
theorem generatorEntry_parity (t : Tables) {k r c : Nat} (hc : c < k) (hr : r < 256) (h : k ≤ r) :
    generatorEntry t k r c hc hr = t.inv ⟨indexXor r c, indexXor_ne_zero h hc hr⟩ := by
  have : ¬ r < k := by omega
  simp [generatorEntry, this]

/-- Two slots of one erased position are one slot, when the erased positions are distinct. -/
theorem slot_unique {s : State} {e t u : Nat} (hd : ∀ t < e, ∀ u < t, s.entry .eras t ≠ s.entry .eras u) (ht : t < e)
    (hu : u < e) (h : s.entry .eras t = s.entry .eras u) : t = u := by
  rcases Nat.lt_trichotomy t u with hlt | heq | hlt
  · exact absurd h.symm (hd u hu t hlt)
  · exact heq
  · exact absurd h (hd t ht u hlt)

/-- The slot of an erased position (R172). -/
theorem erasedSlot_of_erased {s : State} {e t p : Nat} (hd : ∀ t < e, ∀ u < t, s.entry .eras t ≠ s.entry .eras u)
    (ht : t < e) (hp : s.entry .eras t = p) : erasedSlot s e p = some t := by
  cases h : erasedSlot s e p with
  | none =>
    have := List.find?_eq_none.mp h t (by simpa using ht)
    simp [hp] at this
  | some u =>
    have h1 : s.entry .eras u = p := by simpa using List.find?_some h
    have h2 : u < e := by simpa using List.mem_of_find?_eq_some h
    rw [slot_unique hd ht h2 (hp.trans h1.symm)]

/-- A surviving position has no slot. -/
theorem erasedSlot_of_surviving {s : State} {e p : Nat} (h : ¬ isErased s e p) : erasedSlot s e p = none := by
  rw [erasedSlot, List.find?_eq_none]
  intro t ht
  simp only [beq_iff_eq]
  exact fun hp => h ⟨t, by simpa using ht, hp⟩

theorem length_decodeMatrix (s : State) (k e : Nat) : (decodeMatrix s k e).length = k := by simp [decodeMatrix]

theorem length_decodeRow (s : State) (k e p : Nat) : (decodeRow s k e p).length = k := by
  unfold decodeRow
  split <;> simp [unitRow]

end Sys2Proof.Machine
end

