-- ==== Sys2Proof/Laws/Memory.lean ====
section
/-! SUPPORT. Block memory: the canonical form is kept by every operation, a read after a write to the same place gives
what was written, and a write leaves every other place alone. -/

namespace Sys2Proof.Machine

@[simp] theorem Memory.read_nil (a : Nat) : read [] a = Config.unlistedByte := rfl

theorem Memory.wf_nil : wf [] := by simp [wf]

/-- The rest of a canonical memory is canonical. -/
theorem Memory.wf_tail {c : Host.Cell} {m : Memory} (h : wf (c :: m)) : wf m := by
  obtain ⟨hp, hc⟩ := h
  exact ⟨(List.pairwise_cons.mp hp).2, fun d hd => hc d (List.mem_cons_of_mem _ hd)⟩

/-- The first address of a canonical memory is the lowest. -/
theorem Memory.wf_head_lt {c d : Host.Cell} {m : Memory} (h : wf (c :: m)) (hd : d ∈ m) : c.1 < d.1 :=
  (List.pairwise_cons.mp h.1).1 d hd

/-- Below its lowest address a canonical memory lists nothing. -/
theorem Memory.read_below {m : Memory} {a : Nat} (h : ∀ c ∈ m, a < c.1) : read m a = Config.unlistedByte := by
  cases m with
  | nil => rfl
  | cons c m => obtain ⟨b, u⟩ := c; simp [read, h (b, u) (by simp)]

/-- A write adds no address but its own. -/
theorem Memory.mem_write {m : Memory} {a : Nat} {v : Byte} {c : Host.Cell} (h : c ∈ write m a v) :
    c ∈ m ∨ (c = (a, v) ∧ v ≠ Config.unlistedByte) := by
  induction m with
  | nil =>
    unfold write at h
    split at h <;> simp_all
  | cons d m ih =>
    obtain ⟨b, u⟩ := d
    unfold write at h
    split at h
    · split at h <;> simp_all; tauto
    · split at h
      · split at h <;> simp_all; tauto
      · rcases List.mem_cons.mp h with h | h
        · simp [h]
        · rcases ih h with h | h
          · simp [h]
          · exact .inr h

/-- A write inside `MEM` keeps the canonical form. -/
theorem Memory.wf_write {m : Memory} (h : wf m) {a : Nat} (ha : a < Config.memSize) (v : Byte) : wf (write m a v) := by
  refine ⟨?_, fun c hc => ?_⟩
  · induction m with
    | nil =>
      unfold write
      split <;> simp
    | cons d m ih =>
      obtain ⟨b, u⟩ := d
      have ht := wf_tail h
      have hb : ∀ c ∈ m, b < c.1 := fun c hc => wf_head_lt h hc
      unfold write
      split
      · rename_i hlt
        split
        · exact h.1
        · refine List.pairwise_cons.mpr ⟨fun c hc => ?_, h.1⟩
          rcases List.mem_cons.mp hc with rfl | hc
          · exact hlt
          · exact Nat.lt_trans hlt (hb c hc)
      · split
        · rename_i heq
          split
          · exact ht.1
          · exact List.pairwise_cons.mpr ⟨fun c hc => heq ▸ hb c hc, ht.1⟩
        · rename_i hge hne
          refine List.pairwise_cons.mpr ⟨fun c hc => ?_, ih ht⟩
          rcases mem_write hc with hc | ⟨rfl, -⟩
          · exact hb c hc
          · show b < a
            omega
  · rcases mem_write hc with hc | ⟨rfl, hv⟩
    · exact h.2 c hc
    · exact ⟨ha, hv⟩

/-- A read after a write to the same address gives the byte written. -/
theorem Memory.read_write_self {m : Memory} (h : wf m) (a : Nat) (v : Byte) : read (write m a v) a = v := by
  induction m with
  | nil =>
    unfold write
    split <;> simp_all [read]
  | cons d m ih =>
    obtain ⟨b, u⟩ := d
    unfold write
    split
    · rename_i hlt
      split
      · simp_all [read]
      · simp [read]
    · split
      · rename_i hlt heq
        split
        · subst heq
          rename_i hv
          rw [hv]
          exact read_below fun c hc => wf_head_lt h hc
        · simp [read]
      · rename_i hlt hne
        simp [read, hlt, hne, ih (wf_tail h)]

/-- A write leaves every other address alone. -/
theorem Memory.read_write_of_ne {m : Memory} (h : wf m) {a b : Nat} (hab : b ≠ a) (v : Byte) :
    read (write m a v) b = read m b := by
  induction m with
  | nil =>
    unfold write
    split
    · rfl
    · simp [read, hab]
  | cons d m ih =>
    obtain ⟨e, u⟩ := d
    have hlow : ∀ c ∈ m, e < c.1 := fun c hc => wf_head_lt h hc
    unfold write
    split
    · rename_i hlt
      split
      · rfl
      · by_cases hb : b < a
        · simp [read, hb, Nat.lt_trans hb hlt]
        · simp [read, hb, hab]
    · split
      · rename_i hlt heq
        subst heq
        split
        · by_cases hb : b < a
          · simp only [read, hb, if_true]
            exact read_below fun c hc => Nat.lt_trans hb (hlow c hc)
          · simp [read, hb, hab]
        · simp [read, hab]
      · simp only [read, ih (wf_tail h)]

/-- Two canonical memories that read alike everywhere are equal. -/
theorem Memory.ext_of_wf {m m' : Memory} (h : wf m) (h' : wf m') (heq : ∀ a, read m a = read m' a) : m = m' := by
  induction m generalizing m' with
  | nil =>
    cases m' with
    | nil => rfl
    | cons c m' =>
      obtain ⟨b, u⟩ := c
      have := heq b
      simp only [read, Nat.lt_irrefl, if_false, if_true] at this
      exact absurd this.symm (h'.2 (b, u) (by simp)).2
  | cons c m ih =>
    obtain ⟨b, u⟩ := c
    cases m' with
    | nil =>
      have := heq b
      simp only [read, Nat.lt_irrefl, if_false, if_true] at this
      exact absurd this (h.2 (b, u) (by simp)).2
    | cons c' m' =>
      obtain ⟨b', u'⟩ := c'
      have hu := (h.2 (b, u) (by simp)).2
      have hu' := (h'.2 (b', u') (by simp)).2
      have hbb : b = b' := by
        rcases Nat.lt_trichotomy b b' with hlt | heq' | hlt
        · have := heq b
          simp [read, hlt] at this
          exact absurd this hu
        · exact heq'
        · have := heq b'
          simp [read, hlt] at this
          exact absurd this.symm hu'
      subst hbb
      have huu : u = u' := by
        have := heq b
        simpa [read] using this
      subst huu
      congr 1
      refine ih (wf_tail h) (wf_tail h') fun a => ?_
      by_cases hab : a ≤ b
      · rw [read_below fun c hc => Nat.lt_of_le_of_lt hab (wf_head_lt h hc),
          read_below fun c hc => Nat.lt_of_le_of_lt hab (wf_head_lt h' hc)]
      · have := heq a
        have h1 : ¬ a < b := by omega
        have h2 : a ≠ b := by omega
        simpa [read, h1, h2] using this

/-! ### Stores of bytes and blocks -/

/-- Storing bytes inside `MEM` keeps the canonical form. -/
theorem wf_storeBytes {m : Memory} (h : m.wf) {base : Nat} {vs : List Byte} (hi : insideMem base vs.length) :
    (storeBytes m base vs).wf := by
  induction vs generalizing m base with
  | nil => exact h
  | cons v vs ih =>
    simp only [insideMem, List.length_cons] at hi
    exact ih (Memory.wf_write h (by omega) v) (by simp only [insideMem]; omega)

/-- Storing bytes leaves every address outside their range alone. -/
theorem read_storeBytes_of_outside {m : Memory} (h : m.wf) {base : Nat} {vs : List Byte}
    (hi : insideMem base vs.length) {a : Nat} (ha : a < base ∨ base + vs.length ≤ a) :
    (storeBytes m base vs).read a = m.read a := by
  induction vs generalizing m base with
  | nil => rfl
  | cons v vs ih =>
    simp only [insideMem, List.length_cons] at hi ha
    rw [storeBytes, ih (Memory.wf_write h (by omega) v) (by simp only [insideMem]; omega) (by omega),
      Memory.read_write_of_ne h (by omega)]

/-- Byte `x` of the stored bytes is at `base + x`. -/
theorem read_storeBytes {m : Memory} (h : m.wf) {base : Nat} {vs : List Byte} (hi : insideMem base vs.length)
    {x : Nat} (hx : x < vs.length) : (storeBytes m base vs).read (base + x) = vs[x] := by
  induction vs generalizing m base x with
  | nil => simp at hx
  | cons v vs ih =>
    simp only [insideMem, List.length_cons] at hi hx
    have hw := Memory.wf_write h (show base < Config.memSize by omega) v
    have hi' : insideMem (base + 1) vs.length := by simp only [insideMem]; omega
    cases x with
    | zero => rw [storeBytes, read_storeBytes_of_outside hw hi' (by omega)]; simpa using Memory.read_write_self h base v
    | succ x =>
      have := ih hw hi' (x := x) (by omega)
      rw [show base + 1 + x = base + (x + 1) by omega] at this
      simpa [storeBytes] using this

/-- Storing blocks inside `MEM` keeps the canonical form. -/
theorem wf_storeBlocks {m : Memory} (h : m.wf) {bs : List (Nat × List Byte)}
    (hi : ∀ b ∈ bs, insideMem b.1 b.2.length) : (storeBlocks m bs).wf := by
  induction bs generalizing m with
  | nil => exact h
  | cons b bs ih =>
    obtain ⟨base, vs⟩ := b
    exact ih (wf_storeBytes h (hi (base, vs) (by simp))) fun c hc => hi c (List.mem_cons_of_mem _ hc)

/-- Storing blocks leaves every address outside all of them alone. -/
theorem read_storeBlocks_of_outside {m : Memory} (h : m.wf) {bs : List (Nat × List Byte)}
    (hi : ∀ b ∈ bs, insideMem b.1 b.2.length) {a : Nat} (ha : ∀ b ∈ bs, a < b.1 ∨ b.1 + b.2.length ≤ a) :
    (storeBlocks m bs).read a = m.read a := by
  induction bs generalizing m with
  | nil => rfl
  | cons b bs ih =>
    obtain ⟨base, vs⟩ := b
    have h1 := hi (base, vs) (by simp)
    rw [storeBlocks, ih (wf_storeBytes h h1) (fun c hc => hi c (List.mem_cons_of_mem _ hc))
      (fun c hc => ha c (List.mem_cons_of_mem _ hc)), read_storeBytes_of_outside h h1 (ha (base, vs) (by simp))]

/-- Byte `x` of a stored block is at its base plus `x`, when the blocks share no byte. -/
theorem read_storeBlocks {m : Memory} (h : m.wf) {bs : List (Nat × List Byte)}
    (hi : ∀ b ∈ bs, insideMem b.1 b.2.length)
    (hd : bs.Pairwise fun b c => rangesApart b.1 b.2.length c.1 c.2.length)
    {b : Nat × List Byte} (hb : b ∈ bs) {x : Nat} (hx : x < b.2.length) :
    (storeBlocks m bs).read (b.1 + x) = b.2[x] := by
  induction bs generalizing m with
  | nil => simp at hb
  | cons c bs ih =>
    obtain ⟨base, vs⟩ := c
    have h1 := hi (base, vs) (by simp)
    have hw := wf_storeBytes h h1
    have hi' : ∀ c ∈ bs, insideMem c.1 c.2.length := fun c hc => hi c (List.mem_cons_of_mem _ hc)
    obtain ⟨hd1, hd2⟩ := List.pairwise_cons.mp hd
    rcases List.mem_cons.mp hb with rfl | hb
    · rw [storeBlocks, read_storeBlocks_of_outside hw hi' fun c hc => ?_]
      · exact read_storeBytes h h1 hx
      · have := hd1 c hc
        simp only [rangesApart] at this hx ⊢
        omega
    · exact ih hw hi' hd2 hb

end Sys2Proof.Machine
end

