-- ==== Sys2Proof/Laws/Commands.lean ====
section
/-! SUPPORT. Everything each command can answer, once per command: its errors, its refusal, its success with the
conditions under which it succeeds. -/

namespace Sys2Proof.Machine

theorem memSize_eq : Config.memSize = 2 ^ 32 := rfl

/-! ### The scalar commands -/

/-- GFMUL: `NOTINIT`, or the product in `RESULT`. -/
theorem execGfmul_cases (a b : Byte) (s : State) :
    (s.tv = false ∧ execGfmul a b s = .next (s.setErr .notInit)) ∨
      (s.tv = true ∧ execGfmul a b s = .next ((s.setResult (s.tables.mul a b)).setErr .ok)) := by
  cases h : s.tv <;> simp [execGfmul, guarded_cons, needsTables, h]

/-- GFDIV: `NOTINIT`, `DIVZERO`, or the quotient in `RESULT`. -/
theorem execGfdiv_cases (a b : Byte) (s : State) :
    (s.tv = false ∧ execGfdiv a b s = .next (s.setErr .notInit)) ∨
      (s.tv = true ∧ b = 0#8 ∧ execGfdiv a b s = .next (s.setErr .divZero)) ∨
      (s.tv = true ∧ ∃ hb : b ≠ 0#8, execGfdiv a b s = .next ((s.setResult (s.tables.div a ⟨b, hb⟩)).setErr .ok)) := by
  cases h : s.tv <;> by_cases hb : b = 0#8 <;> simp [execGfdiv, guarded_cons, needsTables, h, hb]

/-- GFINV: `NOTINIT`, `DIVZERO`, or the inverse in `RESULT`. -/
theorem execGfinv_cases (a : Byte) (s : State) :
    (s.tv = false ∧ execGfinv a s = .next (s.setErr .notInit)) ∨
      (s.tv = true ∧ a = 0#8 ∧ execGfinv a s = .next (s.setErr .divZero)) ∨
      (s.tv = true ∧ ∃ ha : a ≠ 0#8, execGfinv a s = .next ((s.setResult (s.tables.inv ⟨a, ha⟩)).setErr .ok)) := by
  cases h : s.tv <;> by_cases ha : a = 0#8 <;> simp [execGfinv, guarded_cons, needsTables, h, ha]

/-- BUILD: `NOTINIT`, `CONFIG`, or the matrix. -/
theorem execBuild_cases (n k : Nat) (s : State) :
    (s.tv = false ∧ execBuild n k s = .next (s.setErr .notInit)) ∨
      (s.tv = true ∧ ¬ legalDims n k ∧ execBuild n k s = .next (s.setErr .config)) ∨
      (s.tv = true ∧ ∃ h : legalDims n k,
        execBuild n k s = .next ((s.setMatrix (generatorMatrix s.tables n k h.2.2) n k).setErr .ok)) := by
  cases h : s.tv
  · exact .inl ⟨rfl, by simp [execBuild, guarded_cons, needsTables, h]⟩
  · by_cases hl : legalDims n k
    · exact .inr (.inr ⟨rfl, hl, by rw [execBuild, needsTables, guarded_cons, h, dif_pos hl]; rfl⟩)
    · exact .inr (.inl ⟨rfl, hl, by rw [execBuild, needsTables, guarded_cons, h, dif_neg hl]; rfl⟩)

/-- MATRD: `NOTINIT`, `NOMATRIX`, `INDEX`, or the entry in `RESULT`. -/
theorem execMatrd_cases (row col : Nat) (s : State) :
    (∃ e ∈ [Err.notInit, .noMatrix, .index], execMatrd row col s = .next (s.setErr e)) ∨
      (s.tv = true ∧ s.mv = true ∧ row < s.dimN.toNat ∧ col < s.dimK.toNat ∧
        execMatrd row col s = .next ((s.setResult (entryAt s.gen row col)).setErr .ok)) := by
  rcases guarded_cases [needsTables s, needsMatrix s, (decide (row ≥ s.dimN.toNat ∨ col ≥ s.dimK.toNat), .index)] s
    (succeed (s.setResult (entryAt s.gen row col))) with ⟨e, he, h⟩ | ⟨hn, h⟩
  · refine .inl ⟨e, ?_, h⟩
    simp only [needsTables, needsMatrix, List.mem_cons, Prod.mk.injEq, List.not_mem_nil, or_false] at he ⊢
    tauto
  · rw [firstError_eq_none_iff] at hn
    simp [needsTables, needsMatrix] at hn
    exact .inr ⟨hn.1, hn.2.1, hn.2.2.1, hn.2.2.2, h⟩

/-! ### ENCODE -/

/-- The disjointness of ENCODE's buffers, by index. -/
theorem encodeDisjoint_iff (s : State) (k m : Nat) :
    buffersDisjoint s.blockSize (parityPtrs s m) (encodeReads s k m) ↔
      (∀ i < m, ∀ j < i, rangesApart (s.entry .fptr j) s.blockSize (s.entry .fptr i) s.blockSize) ∧
        ∀ i < m, ∀ c < k, rangesApart (s.entry .fptr i) s.blockSize (s.entry .dptr c) s.blockSize := by
  rw [buffersDisjoint, parityPtrs, pairwise_entries]
  refine and_congr Iff.rfl ?_
  rcases Nat.eq_zero_or_pos m with rfl | hm
  · simp [State.entries]
  · have : m ≠ 0 := by omega
    simp only [encodeReads, this, if_false, dataPtrs, mem_entries]
    constructor
    · intro h i hi c hc
      exact h _ ⟨i, hi, rfl⟩ _ ⟨c, hc, rfl⟩
    · rintro h _ ⟨i, hi, rfl⟩ _ ⟨c, hc, rfl⟩
      exact h i hi c hc

/-- An ENCODE that is ready stores its parity blocks. -/
theorem execEncode_of_ready {s : State} {k m : Nat} (h : encodeReady s k m) :
    execEncode k m s = .next ((s.setMem (storeBlocks s.mem (parityBlocks s k m))).setErr .ok) := by
  obtain ⟨htv, hmv, hk, hm, hd, hf, h1, h2⟩ := h
  have hb := (encodeDisjoint_iff s k m).mpr ⟨h1, h2⟩
  have hD : buffersInside s.blockSize (dataPtrs s k) := buffersInside_entries.mpr hd
  have hF : buffersInside s.blockSize (parityPtrs s m) := buffersInside_entries.mpr hf
  have hn : firstError [needsTables s, needsMatrixKM s k m,
      (decide (¬ buffersInside s.blockSize (dataPtrs s k)), Err.badBuf),
      (decide (¬ buffersInside s.blockSize (parityPtrs s m)), .badBuf)] = none := by
    rw [firstError_eq_none_iff]
    simp only [List.mem_cons, List.not_mem_nil, or_false, forall_eq_or_imp, forall_eq, needsTables, needsMatrixKM, htv,
      hmv, decide_eq_false_iff_not, not_not]
    exact ⟨rfl, by simp [← hk, hm], hD, hF⟩
  rw [execEncode, guarded_of_none hn, if_neg (not_not.mpr (buffersValid_default _ _)), if_neg (not_not.mpr hb)]
  rfl

/-- ENCODE: an error, the refusal of overlapping buffers, or the stores of a ready command. -/
theorem execEncode_cases (k m : Nat) (s : State) :
    (∃ e ∈ [Err.notInit, .noMatrix, .badBuf], execEncode k m s = .next (s.setErr e)) ∨
      execEncode k m s = .refused .overlappingBuffers ∨
      (encodeReady s k m ∧
        execEncode k m s = .next ((s.setMem (storeBlocks s.mem (parityBlocks s k m))).setErr .ok)) := by
  rcases guarded_cases [needsTables s, needsMatrixKM s k m,
      (decide (¬ buffersInside s.blockSize (dataPtrs s k)), .badBuf),
      (decide (¬ buffersInside s.blockSize (parityPtrs s m)), .badBuf)] s _ with ⟨e, he, h⟩ | ⟨hn, h⟩
  · refine .inl ⟨e, ?_, h⟩
    simp only [needsTables, needsMatrixKM, List.mem_cons, Prod.mk.injEq, List.not_mem_nil, or_false] at he ⊢
    tauto
  · rw [firstError_eq_none_iff] at hn
    simp only [List.mem_cons, List.not_mem_nil, or_false, forall_eq_or_imp, forall_eq, needsTables, needsMatrixKM,
      decide_eq_false_iff_not, not_not, Bool.or_eq_false_iff, Bool.not_eq_false', ne_eq] at hn
    obtain ⟨htv, ⟨⟨hmv, hk⟩, hm⟩, hD, hF⟩ := hn
    by_cases hb : buffersDisjoint s.blockSize (parityPtrs s m) (encodeReads s k m)
    · have hr : encodeReady s k m :=
        ⟨htv, hmv, hk, hk ▸ hm, buffersInside_entries.mp hD, buffersInside_entries.mp hF,
          (encodeDisjoint_iff s k m).mp hb⟩
      exact .inr (.inr ⟨hr, execEncode_of_ready hr⟩)
    · refine .inr (.inl ?_)
      rw [execEncode, h, if_neg (not_not.mpr (buffersValid_default _ _)), if_pos hb]

/-- The parity blocks of a ready ENCODE lie inside `MEM`. -/
theorem parityBlocks_inside {s : State} {k m : Nat} (h : encodeReady s k m) :
    ∀ b ∈ parityBlocks s k m, insideMem b.1 b.2.length := by
  intro b hb
  simp only [parityBlocks, List.mem_map, List.mem_range] at hb
  obtain ⟨i, hi, rfl⟩ := hb
  simpa [parityBlock, insideMem] using h.2.2.2.2.2.1 i hi

/-- The parity blocks of a ready ENCODE share no byte. -/
theorem parityBlocks_apart {s : State} {k m : Nat} (h : encodeReady s k m) :
    (parityBlocks s k m).Pairwise fun b c => rangesApart b.1 b.2.length c.1 c.2.length := by
  rw [parityBlocks, List.pairwise_map, List.pairwise_iff_getElem]
  intro i j hi hj hij
  simp only [List.length_range] at hi hj
  simpa [parityBlock] using h.2.2.2.2.2.2.1 j hj i hij

/-! ### DECODE -/

/-- Checks 1 to 8 of R171 all pass exactly when the indices are legal. -/
theorem decodeChecks_none_iff (s : State) (k e a : Nat) :
    firstError (decodeChecks s k e a) = none ↔ decodeIndicesLegal s k e a := by
  rw [firstError_eq_none_iff]
  simp only [decodeChecks, List.mem_cons, List.not_mem_nil, or_false, forall_eq_or_imp, forall_eq, needsTables,
    needsMatrixK, decide_eq_false_iff_not, not_not, Bool.or_eq_false_iff, Bool.not_eq_false', ne_eq, nodup_entries,
    mem_entries, decodeIndicesLegal]
  constructor
  · rintro ⟨htv, ⟨hmv, hk⟩, h3, h4, h5, h6, h7, h8⟩
    refine ⟨htv, hmv, hk, by omega, by omega, by omega, fun t ht => ?_, h6, fun t ht => ?_, h8⟩
    · by_contra hc
      exact h5 ⟨_, ⟨t, ht, rfl⟩, by omega⟩
    · by_contra hc
      exact h7 ⟨_, ⟨t, ht, rfl⟩, by omega⟩
  · rintro ⟨htv, hmv, hk, h3, h3', h4, h5, h6, h7, h8⟩
    refine ⟨htv, ⟨hmv, hk⟩, by omega, by omega, ?_, h6, ?_, h8⟩
    · rintro ⟨_, ⟨t, ht, rfl⟩, hc⟩
      have := h5 t ht
      omega
    · rintro ⟨_, ⟨t, ht, rfl⟩, hc⟩
      have := h7 t ht
      omega

/-- The disjointness of DECODE's buffers, by index, for legal erased positions. -/
theorem decodeDisjoint_iff {s : State} {k e : Nat} (hr : ∀ t < e, s.entry .eras t < k)
    (hd : ∀ t < e, ∀ u < t, s.entry .eras t ≠ s.entry .eras u) :
    buffersDisjoint s.blockSize (decodeWrites s e) (decodeReads s k e) ↔
      (∀ t < e, ∀ p < k, p ≠ s.entry .eras t →
        rangesApart (s.entry .dptr (s.entry .eras t)) s.blockSize (s.entry .dptr p) s.blockSize) ∧
      ∀ t < e, ∀ u < e, rangesApart (s.entry .dptr (s.entry .eras t)) s.blockSize (s.entry .fptr u) s.blockSize := by
  have hsymm : ∀ p q n, rangesApart p n q n → rangesApart q n p n := by
    intro p q n h
    simp only [rangesApart] at h ⊢
    omega
  simp only [buffersDisjoint, decodeWrites, decodeReads, erasedPositions, parityPtrs, List.pairwise_map, pairwise_entries,
    List.mem_append, List.mem_map, List.mem_filter, List.mem_range, mem_entries, decide_eq_true_eq]
  constructor
  · rintro ⟨hw, hrd⟩
    refine ⟨fun t ht p hp hne => ?_, fun t ht u hu => hrd _ ⟨_, ⟨t, ht, rfl⟩, rfl⟩ _ (.inr ⟨u, hu, rfl⟩)⟩
    by_cases he : ∃ u < e, s.entry .eras u = p
    · obtain ⟨u, hu, rfl⟩ := he
      rcases Nat.lt_trichotomy t u with hlt | heq | hlt
      · exact hw u hu t hlt
      · exact absurd (by rw [heq]) hne
      · exact hsymm _ _ _ (hw t ht u hlt)
    · exact hrd _ ⟨_, ⟨t, ht, rfl⟩, rfl⟩ _ (.inl ⟨p, ⟨hp, he⟩, rfl⟩)
  · rintro ⟨h1, h2⟩
    refine ⟨fun t ht u hu => h1 u (by omega) _ (hr t ht) (hd t ht u hu), ?_⟩
    rintro _ ⟨_, ⟨t, ht, rfl⟩, rfl⟩ _ (⟨p, ⟨hp, he⟩, rfl⟩ | ⟨u, hu, rfl⟩)
    · exact h1 t ht p hp fun hc => he ⟨t, ht, hc.symm⟩
    · exact h2 t ht u hu

/-- The stores of a DECODE that recovers with `v`. -/
def decodedState (s : State) (v : ByteMatrix) (k e : Nat) : State :=
  (s.setMem (storeBlocks s.mem (recoveredBlocks s v k e))).setErr .ok

/-- A DECODE that is ready ends in `SINGULAR` or in the stores of the recovered blocks. -/
theorem execDecode_of_ready {s : State} {k e a : Nat} (h : decodeReady s k e a) :
    execDecode k e a s = match invert s.tables k (decodeMatrix s k e) with
      | none => .next (s.setErr .singular)
      | some v => .next (decodedState s v k e) := by
  obtain ⟨he, hi, hD, hF, hw⟩ := h
  have hk := hi.2.2.1
  have hb := (decodeDisjoint_iff hi.2.2.2.2.2.2.1 hi.2.2.2.2.2.2.2.1).mpr hw
  have hn : firstError (decodeBufferChecks s e) = none := by
    rw [firstError_eq_none_iff]
    simp only [decodeBufferChecks, List.mem_cons, List.not_mem_nil, or_false, forall_eq_or_imp, forall_eq,
      decide_eq_false_iff_not, not_not]
    exact ⟨buffersInside_entries.mpr (hk ▸ hD), buffersInside_entries.mpr hF⟩
  rw [execDecode, guarded_of_none ((decodeChecks_none_iff s k e a).mpr hi), if_neg (by omega), guarded_of_none hn]
  cases invert s.tables k (decodeMatrix s k e) with
  | none => rfl
  | some v =>
    show reconstruct s v k e = _
    rw [reconstruct, if_neg (not_not.mpr (buffersValid_default _ _)), if_neg (not_not.mpr hb)]
    rfl

/-- DECODE: an error, the success with no erasure, the refusal of overlapping buffers, `SINGULAR`, or the stores of a
ready command. -/
theorem execDecode_cases (k e a : Nat) (s : State) :
    (∃ err ∈ [Err.notInit, .noMatrix, .index, .insufficient, .badBuf],
        execDecode k e a s = .next (s.setErr err)) ∨
      (e = 0 ∧ decodeIndicesLegal s k e a ∧ execDecode k e a s = .next (s.setErr .ok)) ∨
      (decodeIndicesLegal s k e a ∧ invert s.tables k (decodeMatrix s k e) = none ∧
        execDecode k e a s = .next (s.setErr .singular)) ∨
      execDecode k e a s = .refused .overlappingBuffers ∨
      (decodeReady s k e a ∧ ∃ v, invert s.tables k (decodeMatrix s k e) = some v ∧
        execDecode k e a s = .next (decodedState s v k e)) := by
  rcases guarded_cases (decodeChecks s k e a) s _ with ⟨err, herr, h⟩ | ⟨hn, h⟩
  · refine .inl ⟨err, ?_, h⟩
    simp only [decodeChecks, needsTables, needsMatrixK, List.mem_cons, Prod.mk.injEq, List.not_mem_nil,
      or_false] at herr ⊢
    tauto
  · have hi := (decodeChecks_none_iff s k e a).mp hn
    by_cases he : e = 0
    · refine .inr (.inl ⟨he, hi, ?_⟩)
      rw [execDecode, h, if_pos he]
      rfl
    · rcases guarded_cases (decodeBufferChecks s e) s _ with ⟨err, herr, h'⟩ | ⟨hn', h'⟩
      · refine .inl ⟨err, ?_, by rw [execDecode, h, if_neg he, h']⟩
        simp only [decodeBufferChecks, List.mem_cons, Prod.mk.injEq, List.not_mem_nil, or_false] at herr ⊢
        tauto
      · rw [firstError_eq_none_iff] at hn'
        simp only [decodeBufferChecks, List.mem_cons, List.not_mem_nil, or_false, forall_eq_or_imp, forall_eq,
          decide_eq_false_iff_not, not_not] at hn'
        have hD := buffersInside_entries.mp hn'.1
        have hF := buffersInside_entries.mp hn'.2
        rw [← hi.2.2.1] at hD
        cases hv : invert s.tables k (decodeMatrix s k e) with
        | none =>
          refine .inr (.inr (.inl ⟨hi, rfl, ?_⟩))
          rw [execDecode, h, if_neg he, h', hv]
          rfl
        | some v =>
          by_cases hb : buffersDisjoint s.blockSize (decodeWrites s e) (decodeReads s k e)
          · have hr : decodeReady s k e a :=
              ⟨by omega, hi, hD, hF, (decodeDisjoint_iff hi.2.2.2.2.2.2.1 hi.2.2.2.2.2.2.2.1).mp hb⟩
            refine .inr (.inr (.inr (.inr ⟨hr, v, rfl, ?_⟩)))
            rw [execDecode_of_ready hr, hv]
          · refine .inr (.inr (.inr (.inl ?_)))
            rw [execDecode, h, if_neg he, h', hv]
            show reconstruct s v k e = _
            rw [reconstruct, if_neg (not_not.mpr (buffersValid_default _ _)), if_pos hb]

/-- The recovered blocks of a ready DECODE lie inside `MEM`. -/
theorem recoveredBlocks_inside {s : State} {v : ByteMatrix} {k e a : Nat} (h : decodeReady s k e a) :
    ∀ b ∈ recoveredBlocks s v k e, insideMem b.1 b.2.length := by
  intro b hb
  simp only [recoveredBlocks, erasedPositions, List.mem_map, mem_entries] at hb
  obtain ⟨_, ⟨t, ht, rfl⟩, rfl⟩ := hb
  simpa [recoveredBlock, insideMem] using h.2.2.1 _ (h.2.1.2.2.2.2.2.2.1 t ht)

/-- The recovered blocks of a ready DECODE share no byte. -/
theorem recoveredBlocks_apart {s : State} {v : ByteMatrix} {k e a : Nat} (h : decodeReady s k e a) :
    (recoveredBlocks s v k e).Pairwise fun b c => rangesApart b.1 b.2.length c.1 c.2.length := by
  have hi := h.2.1
  rw [recoveredBlocks, erasedPositions, List.pairwise_map, pairwise_entries]
  intro t ht u hu
  have := h.2.2.2.2.1 u (by omega) _ (hi.2.2.2.2.2.2.1 t ht) (hi.2.2.2.2.2.2.2.1 t ht u hu)
  simpa [recoveredBlock] using this

end Sys2Proof.Machine
end

