-- ==== Sys2Proof/Laws/Decode.lean ====
section
/-! SUPPORT. The bits of a word and of an encoded command (R10, R71, R74). -/

namespace Sys2Proof

/-- A slice is a `BitVec` extraction. -/
theorem slice_eq_extract (w : Word) (hi lo : Nat) : slice w hi lo = (w.extractLsb' lo (hi + 1 - lo)).toNat := by
  simp [slice, BitVec.extractLsb'_toNat, Nat.shiftRight_eq_div_pow]

theorem slice_lt (w : Word) (hi lo : Nat) : slice w hi lo < 2 ^ (hi + 1 - lo) := Nat.mod_lt _ (Nat.two_pow_pos _)

/-- Concatenation `{x, y}` as arithmetic (R10). -/
theorem toNat_append_eq {n m : Nat} (x : BitVec n) (y : BitVec m) :
    (x ++ y).toNat = x.toNat * 2 ^ m + y.toNat := by
  rw [BitVec.toNat_append, ← Nat.shiftLeft_add_eq_or_of_lt y.isLt, Nat.shiftLeft_eq]

theorem formatZ_toNat (op : BitVec 4) : (formatZ op).toNat = op.toNat * 2 ^ 28 := by
  simp only [formatZ, toNat_append_eq, BitVec.toNat_ofNat]
  omega

theorem formatS_toNat (op : BitVec 4) (a b : Byte) :
    (formatS op a b).toNat = op.toNat * 2 ^ 28 + a.toNat * 2 ^ 8 + b.toNat := by
  simp only [formatS, toNat_append_eq, BitVec.toNat_ofNat]
  omega

/-- The two counts of format P, each in its range. -/
theorem formatP_toNat (op : BitVec 4) {hi lo : Nat} (hhi : hi < 512) (hlo : lo < 512) :
    (formatP op hi lo).toNat = op.toNat * 2 ^ 28 + hi * 2 ^ 9 + lo := by
  simp only [formatP, toNat_append_eq, BitVec.toNat_ofNat]
  omega

/-- The three counts of format D, each in its range. -/
theorem formatD_toNat (op : BitVec 4) {a e k : Nat} (ha : a < 512) (he : e < 512) (hk : k < 512) :
    (formatD op a e k).toNat = op.toNat * 2 ^ 28 + a * 2 ^ 18 + e * 2 ^ 9 + k := by
  simp only [formatD, toNat_append_eq, BitVec.toNat_ofNat]
  omega

/-- The value of a well-formed command's word: the opcode times `2^28` plus the fields in their places (R71, R72). -/
def encodedValue : Instr → Nat
  | .init => 0x10000000
  | .gfmul a b => 0x20000000 + a.toNat * 2 ^ 8 + b.toNat
  | .gfdiv a b => 0x30000000 + a.toNat * 2 ^ 8 + b.toNat
  | .gfinv a => 0x40000000 + a.toNat * 2 ^ 8
  | .build n k => 0x50000000 + n * 2 ^ 9 + k
  | .matrd row col => 0x60000000 + row * 2 ^ 8 + col
  | .encode k m => 0x70000000 + m * 2 ^ 9 + k
  | .decode k e a => 0x80000000 + a * 2 ^ 18 + e * 2 ^ 9 + k

theorem encode_toNat (i : Instr) (h : wellFormed i = true) : (encode i).toNat = encodedValue i := by
  cases i <;> simp only [wellFormed, decide_eq_true_eq] at h
  case init => rfl
  case gfmul a b => exact formatS_toNat 2 a b
  case gfdiv a b => exact formatS_toNat 3 a b
  case gfinv a => exact formatS_toNat 4 a 0#8
  case build n k => exact formatP_toNat 5 h.1 h.2
  case matrd row col =>
    refine (formatS_toNat 6 _ _).trans ?_
    rw [BitVec.toNat_ofNat, BitVec.toNat_ofNat, Nat.mod_eq_of_lt h.1, Nat.mod_eq_of_lt h.2]
    rfl
  case encode k m => exact formatP_toNat 7 h.2 h.1
  case decode k e a => exact formatD_toNat 8 h.2.2 h.2.1 h.1

end Sys2Proof
end

