-- ==== Sys2Proof/Laws/PerInstr.lean ====
section
/-! SUPPORT. Statements for all commands, one lemma per constructor: the encoder's word of a well-formed command carries
the match value of the command's row under the row's mask (R74). -/

namespace Sys2Proof.Laws.RowMatch

/-- The encoder's word lies in the command's row of R74. -/
def Statement (i : Instr) : Prop := wellFormed i = true → encode i &&& rowMask i = rowMatch i

/-- A mask of the bits from `l` up clears the bits below. -/
theorem and_highMask (w : Word) (l : Nat) :
    (w &&& (BitVec.allOnes 32 <<< l)).toNat = w.toNat / 2 ^ l * 2 ^ l := by
  have : w &&& (BitVec.allOnes 32 <<< l) = (w >>> l) <<< l := by
    ext i hi
    simp only [BitVec.getElem_and, BitVec.getElem_shiftLeft, BitVec.getElem_allOnes, BitVec.getElem_ushiftRight]
    by_cases h : i < l
    · simp [h]
    · have : l + (i - l) = i := by omega
      simp [h, this, BitVec.getLsbD_eq_getElem hi]
  rw [this, BitVec.toNat_shiftLeft, BitVec.toNat_ushiftRight, Nat.shiftRight_eq_div_pow, Nat.shiftLeft_eq]
  exact Nat.mod_eq_of_lt (Nat.lt_of_le_of_lt (Nat.div_mul_le_self _ _) w.isLt)

/-- A word whose value is the opcode's and less than `2 ^ l` more matches the opcode under the mask of bits `l` up. -/
theorem matches_highMask {w mask mtch : Word} {op rest : Nat} (l : Nat) (hl : l ≤ 28)
    (hmask : mask = BitVec.allOnes 32 <<< l) (hmtch : mtch.toNat = op * 2 ^ 28) (hw : w.toNat = op * 2 ^ 28 + rest)
    (hrest : rest < 2 ^ l) : w &&& mask = mtch := by
  apply BitVec.eq_of_toNat_eq
  have hpow : (2 : Nat) ^ 28 = 2 ^ (28 - l) * 2 ^ l := by rw [← Nat.pow_add, Nat.sub_add_cancel hl]
  rw [hmask, and_highMask, hmtch, hw, hpow, ← Nat.mul_assoc, Nat.add_comm (_ * _), Nat.add_mul_div_right _ _ (Nat.two_pow_pos l),
    Nat.div_eq_of_lt hrest, Nat.zero_add]

/-- Two operand bytes are below `2 ^ 16`. -/
theorem bytes_lt (a b : Byte) : a.toNat * 2 ^ 8 + b.toNat < 2 ^ 16 := by
  have := a.isLt
  have := b.isLt
  omega

theorem init : Statement .init := fun _ => by decide

theorem gfmul (a b : Byte) : Statement (.gfmul a b) := fun _ =>
  matches_highMask (op := 2) 16 (by decide) rfl rfl (by rw [encode, formatS_toNat, Nat.add_assoc]; rfl) (bytes_lt a b)

theorem gfdiv (a b : Byte) : Statement (.gfdiv a b) := fun _ =>
  matches_highMask (op := 3) 16 (by decide) rfl rfl (by rw [encode, formatS_toNat, Nat.add_assoc]; rfl) (bytes_lt a b)

theorem gfinv (a : Byte) : Statement (.gfinv a) := fun _ => by
  have : ∀ a : Byte, encode (.gfinv a) &&& rowMask (.gfinv a) = rowMatch (.gfinv a) := by decide +kernel
  exact this a

theorem build (n k : Nat) : Statement (.build n k) := fun h => by
  simp only [wellFormed, decide_eq_true_eq] at h
  exact matches_highMask (op := 5) (rest := n * 2 ^ 9 + k) 18 (by decide) rfl rfl
    (by rw [encode, formatP_toNat _ h.1 h.2, Nat.add_assoc]; rfl) (by omega)

theorem matrd (row col : Nat) : Statement (.matrd row col) := fun _ =>
  matches_highMask (op := 6) 16 (by decide) rfl rfl (by rw [encode, formatS_toNat, Nat.add_assoc]; rfl) (bytes_lt _ _)

theorem encode (k m : Nat) : Statement (.encode k m) := fun h => by
  simp only [wellFormed, decide_eq_true_eq] at h
  exact matches_highMask (op := 7) (rest := m * 2 ^ 9 + k) 18 (by decide) rfl rfl
    (by rw [Sys2Proof.encode, formatP_toNat _ h.2 h.1, Nat.add_assoc]; rfl) (by omega)

theorem decode (k e a : Nat) : Statement (.decode k e a) := fun h => by
  simp only [wellFormed, decide_eq_true_eq] at h
  exact matches_highMask (op := 8) (rest := a * 2 ^ 18 + e * 2 ^ 9 + k) 27 (by decide) rfl rfl
    (by rw [Sys2Proof.encode, formatD_toNat _ h.2.2 h.2.1 h.1]; simp only [Nat.add_assoc]; rfl) (by omega)

end Sys2Proof.Laws.RowMatch
end

