-- ==== Sys2Proof/Tests/Slice0.lean ====
section
/-! SUPPORT. The model's own tests: expected values come from spec/95_test_vectors.md and the worked examples of the
rules, each test's source in its comment. After them, for every obligation with hypotheses, a witness that meets them. -/

namespace Sys2Proof.Tests

open Sys2Proof.Machine

/-! ### WellFormed refuses an ill-formed term for each check -/

/-- R73: a 9-bit field holds `0..511`. -/
theorem test_wellFormed_build_n : wellFormed (.build 512 4) = false := by decide
theorem test_wellFormed_build_k : wellFormed (.build 4 512) = false := by decide
/-- R73: an 8-bit field holds `0..255`. -/
theorem test_wellFormed_matrd_row : wellFormed (.matrd 256 0) = false := by decide
theorem test_wellFormed_matrd_col : wellFormed (.matrd 0 256) = false := by decide
theorem test_wellFormed_encode_k : wellFormed (.encode 512 0) = false := by decide
theorem test_wellFormed_encode_m : wellFormed (.encode 0 512) = false := by decide
theorem test_wellFormed_decode_k : wellFormed (.decode 512 0 0) = false := by decide
theorem test_wellFormed_decode_e : wellFormed (.decode 0 512 0) = false := by decide
theorem test_wellFormed_decode_a : wellFormed (.decode 0 0 512) = false := by decide
/-- The top of every field is in range. -/
theorem test_wellFormed_top : wellFormed (.decode 511 511 511) = true ∧ wellFormed (.matrd 255 255) = true := by decide

/-! ### Decoding: words written out from the bit patterns of R74 -/

/-- `0001 0000 0000 0000 0000 0000 0000 0000`. -/
theorem test_decode_init : decode 0b00010000000000000000000000000000 = .ok .init := by decide
/-- `0010 0000 0000 0000 aaaa aaaa bbbb bbbb`, `a = 02`, `b = 80` (R75). -/
theorem test_decode_gfmul : decode 0b00100000000000000000001010000000 = .ok (.gfmul 0x02 0x80) := by decide
/-- `0011 0000 0000 0000 aaaa aaaa bbbb bbbb`, `a = 01`, `b = 02` (R75). -/
theorem test_decode_gfdiv : decode 0b00110000000000000000000100000010 = .ok (.gfdiv 0x01 0x02) := by decide
/-- `0100 0000 0000 0000 aaaa aaaa 0000 0000`, `a = 02` (R75). -/
theorem test_decode_gfinv : decode 0b01000000000000000000001000000000 = .ok (.gfinv 0x02) := by decide
/-- `0101 0000 0000 00nn nnnn nnnk kkkk kkkk`, `n = 256`, `k = 255` (95_test_vectors.md 3.1). -/
theorem test_decode_build : decode 0b01010000000000100000000011111111 = .ok (.build 256 255) := by decide
/-- `0110 0000 0000 0000 rrrr rrrr cccc cccc`, row 4, column 0 (R75). -/
theorem test_decode_matrd : decode 0b01100000000000000000010000000000 = .ok (.matrd 4 0) := by decide
/-- `0111 0000 0000 00mm mmmm mmmk kkkk kkkk`, `m = 255`, `k = 1` (95_test_vectors.md 3.1). -/
theorem test_decode_encode : decode 0b01110000000000011111111000000001 = .ok (.encode 1 255) := by decide
/-- `1000 0AAA AAAA AAEE EEEE EEEk kkkk kkkk`, `A = 2`, `E = 1`, `k = 4` (95_test_vectors.md 3.5, 0x80080204). -/
theorem test_decode_decode : decode 0b10000000000010000000001000000100 = .ok (.decode 4 1 2) := by decide

/-- The illegal words of 95_test_vectors.md 3.1: reserved opcodes. -/
theorem test_decode_reserved : decode 0x00000000 = .error (.reservedOpcode 0) ∧
    decode 0xFFFFFFFF = .error (.reservedOpcode 15) ∧ decode 0x90000000 = .error (.reservedOpcode 9) := by decide
/-- The illegal words of 95_test_vectors.md 3.1: a nonzero `zero` field in every format. -/
theorem test_decode_mustBeZero : decode 0x10000001 = .error (.mustBeZero 1) ∧
    decode 0x18000000 = .error (.mustBeZero 1) ∧ decode 0x20010000 = .error (.mustBeZero 2) ∧
    decode 0x40000201 = .error (.mustBeZero 4) ∧ decode 0x50040000 = .error (.mustBeZero 5) ∧
    decode 0x70040000 = .error (.mustBeZero 7) ∧ decode 0x88000000 = .error (.mustBeZero 8) := by decide
/-- R74: the eight match and mask pairs are pairwise disjoint. -/
theorem test_rows_disjoint : rows.Pairwise fun r q => r.1 &&& (r.2 &&& q.2) ≠ q.1 &&& (r.2 &&& q.2) := by decide

/-! ### The tables of 95_test_vectors.md section 2 -/

/-- `EXP[0..255]` as listed in 95_test_vectors.md 2.1. -/
def expListed : List Byte :=
  [0x01, 0x02, 0x04, 0x08, 0x10, 0x20, 0x40, 0x80, 0x1D, 0x3A, 0x74, 0xE8, 0xCD, 0x87, 0x13, 0x26] ++
  [0x4C, 0x98, 0x2D, 0x5A, 0xB4, 0x75, 0xEA, 0xC9, 0x8F, 0x03, 0x06, 0x0C, 0x18, 0x30, 0x60, 0xC0] ++
  [0x9D, 0x27, 0x4E, 0x9C, 0x25, 0x4A, 0x94, 0x35, 0x6A, 0xD4, 0xB5, 0x77, 0xEE, 0xC1, 0x9F, 0x23] ++
  [0x46, 0x8C, 0x05, 0x0A, 0x14, 0x28, 0x50, 0xA0, 0x5D, 0xBA, 0x69, 0xD2, 0xB9, 0x6F, 0xDE, 0xA1] ++
  [0x5F, 0xBE, 0x61, 0xC2, 0x99, 0x2F, 0x5E, 0xBC, 0x65, 0xCA, 0x89, 0x0F, 0x1E, 0x3C, 0x78, 0xF0] ++
  [0xFD, 0xE7, 0xD3, 0xBB, 0x6B, 0xD6, 0xB1, 0x7F, 0xFE, 0xE1, 0xDF, 0xA3, 0x5B, 0xB6, 0x71, 0xE2] ++
  [0xD9, 0xAF, 0x43, 0x86, 0x11, 0x22, 0x44, 0x88, 0x0D, 0x1A, 0x34, 0x68, 0xD0, 0xBD, 0x67, 0xCE] ++
  [0x81, 0x1F, 0x3E, 0x7C, 0xF8, 0xED, 0xC7, 0x93, 0x3B, 0x76, 0xEC, 0xC5, 0x97, 0x33, 0x66, 0xCC] ++
  [0x85, 0x17, 0x2E, 0x5C, 0xB8, 0x6D, 0xDA, 0xA9, 0x4F, 0x9E, 0x21, 0x42, 0x84, 0x15, 0x2A, 0x54] ++
  [0xA8, 0x4D, 0x9A, 0x29, 0x52, 0xA4, 0x55, 0xAA, 0x49, 0x92, 0x39, 0x72, 0xE4, 0xD5, 0xB7, 0x73] ++
  [0xE6, 0xD1, 0xBF, 0x63, 0xC6, 0x91, 0x3F, 0x7E, 0xFC, 0xE5, 0xD7, 0xB3, 0x7B, 0xF6, 0xF1, 0xFF] ++
  [0xE3, 0xDB, 0xAB, 0x4B, 0x96, 0x31, 0x62, 0xC4, 0x95, 0x37, 0x6E, 0xDC, 0xA5, 0x57, 0xAE, 0x41] ++
  [0x82, 0x19, 0x32, 0x64, 0xC8, 0x8D, 0x07, 0x0E, 0x1C, 0x38, 0x70, 0xE0, 0xDD, 0xA7, 0x53, 0xA6] ++
  [0x51, 0xA2, 0x59, 0xB2, 0x79, 0xF2, 0xF9, 0xEF, 0xC3, 0x9B, 0x2B, 0x56, 0xAC, 0x45, 0x8A, 0x09] ++
  [0x12, 0x24, 0x48, 0x90, 0x3D, 0x7A, 0xF4, 0xF5, 0xF7, 0xF3, 0xFB, 0xEB, 0xCB, 0x8B, 0x0B, 0x16] ++
  [0x2C, 0x58, 0xB0, 0x7D, 0xFA, 0xE9, 0xCF, 0x83, 0x1B, 0x36, 0x6C, 0xD8, 0xAD, 0x47, 0x8E, 0x01]

/-- `LOG[0..255]` as listed in 95_test_vectors.md 2.2; entry 0, which has no value there, is what reset leaves. -/
def logListed : List Byte :=
  [0x00, 0x00, 0x01, 0x19, 0x02, 0x32, 0x1A, 0xC6, 0x03, 0xDF, 0x33, 0xEE, 0x1B, 0x68, 0xC7, 0x4B] ++
  [0x04, 0x64, 0xE0, 0x0E, 0x34, 0x8D, 0xEF, 0x81, 0x1C, 0xC1, 0x69, 0xF8, 0xC8, 0x08, 0x4C, 0x71] ++
  [0x05, 0x8A, 0x65, 0x2F, 0xE1, 0x24, 0x0F, 0x21, 0x35, 0x93, 0x8E, 0xDA, 0xF0, 0x12, 0x82, 0x45] ++
  [0x1D, 0xB5, 0xC2, 0x7D, 0x6A, 0x27, 0xF9, 0xB9, 0xC9, 0x9A, 0x09, 0x78, 0x4D, 0xE4, 0x72, 0xA6] ++
  [0x06, 0xBF, 0x8B, 0x62, 0x66, 0xDD, 0x30, 0xFD, 0xE2, 0x98, 0x25, 0xB3, 0x10, 0x91, 0x22, 0x88] ++
  [0x36, 0xD0, 0x94, 0xCE, 0x8F, 0x96, 0xDB, 0xBD, 0xF1, 0xD2, 0x13, 0x5C, 0x83, 0x38, 0x46, 0x40] ++
  [0x1E, 0x42, 0xB6, 0xA3, 0xC3, 0x48, 0x7E, 0x6E, 0x6B, 0x3A, 0x28, 0x54, 0xFA, 0x85, 0xBA, 0x3D] ++
  [0xCA, 0x5E, 0x9B, 0x9F, 0x0A, 0x15, 0x79, 0x2B, 0x4E, 0xD4, 0xE5, 0xAC, 0x73, 0xF3, 0xA7, 0x57] ++
  [0x07, 0x70, 0xC0, 0xF7, 0x8C, 0x80, 0x63, 0x0D, 0x67, 0x4A, 0xDE, 0xED, 0x31, 0xC5, 0xFE, 0x18] ++
  [0xE3, 0xA5, 0x99, 0x77, 0x26, 0xB8, 0xB4, 0x7C, 0x11, 0x44, 0x92, 0xD9, 0x23, 0x20, 0x89, 0x2E] ++
  [0x37, 0x3F, 0xD1, 0x5B, 0x95, 0xBC, 0xCF, 0xCD, 0x90, 0x87, 0x97, 0xB2, 0xDC, 0xFC, 0xBE, 0x61] ++
  [0xF2, 0x56, 0xD3, 0xAB, 0x14, 0x2A, 0x5D, 0x9E, 0x84, 0x3C, 0x39, 0x53, 0x47, 0x6D, 0x41, 0xA2] ++
  [0x1F, 0x2D, 0x43, 0xD8, 0xB7, 0x7B, 0xA4, 0x76, 0xC4, 0x17, 0x49, 0xEC, 0x7F, 0x0C, 0x6F, 0xF6] ++
  [0x6C, 0xA1, 0x3B, 0x52, 0x29, 0x9D, 0x55, 0xAA, 0xFB, 0x60, 0x86, 0xB1, 0xBB, 0xCC, 0x3E, 0x5A] ++
  [0xCB, 0x59, 0x5F, 0xB0, 0x9C, 0xA9, 0xA0, 0x51, 0x0B, 0xF5, 0x16, 0xEB, 0x7A, 0x75, 0x2C, 0xD7] ++
  [0x4F, 0xAE, 0xD5, 0xE9, 0xE6, 0xE7, 0xAD, 0xE8, 0x74, 0xD6, 0xF4, 0xEA, 0xA8, 0x50, 0x58, 0xAF]

/-- The listed tables. -/
def listedTables : Tables :=
  ⟨⟨expListed.toArray, by decide +kernel⟩, ⟨logListed.toArray, by decide +kernel⟩⟩

/-- 95_test_vectors.md 2.1: the powers of the primitive element. -/
theorem test_exp_listed : powersFrom 256 1 = expListed := by decide +kernel
/-- 95_test_vectors.md 2.2: `LOG[EXP[i]] = i` for `i` in `0..254`. -/
theorem test_log_listed : ((expListed.take 255).zipIdx.all fun ei => logListed.getD ei.1.toNat 0 == BitVec.ofNat 8 ei.2) =
    true := by decide +kernel

/-- The listed tables meet R21 and R22. -/
theorem test_listed_tables : tablesBuilt listedTables := by
  have he : ∀ (i : Nat) (h : i < 256), listedTables.exp[i] = xtime^[i] 1 := fun i h => by
    rw [← getElem_powersFrom 256 1 i (by simpa [length_powersFrom] using h)]
    exact (List.getElem_of_eq test_exp_listed _).symm
  refine ⟨he 0 (by decide), fun i => ?_, fun i => ?_⟩
  · rw [he _ (by omega), he _ (by omega)]
    exact Function.iterate_succ_apply' xtime i.val 1
  · have hl : i.val < expListed.length := by simp [← test_exp_listed, length_powersFrom]; omega
    have hm : (expListed[i.val], i.val) ∈ (expListed.take 255).zipIdx := by
      rw [List.mem_zipIdx_iff_getElem?]
      simp [hl]
    have h := List.all_eq_true.mp test_log_listed _ hm
    have hlen : logListed.length = 256 := listedTables.log.size_toArray
    have hb : (expListed[i.val]).toNat < logListed.length := by rw [hlen]; exact (expListed[i.val]).isLt
    simp only [List.getD_eq_getElem _ _ hb, beq_iff_eq] at h
    simpa [listedTables] using h

/-- INIT after reset builds the listed tables. -/
theorem test_init_tables : builtTables State.reset.tables = listedTables :=
  Tables.ext_of_built (tablesBuilt_builtTables _) test_listed_tables (logTable_zero _)

/-! ### Small states, built by the moves a host makes -/

/-- The state after the host's write of the command word `w`, or the same state when the step does not go on. -/
def sent (s : State) (w : Nat) : State :=
  match step (s.withFetchWord 32 w) with
  | .next t => t
  | _ => s

/-- After INIT. -/
def inited : State := State.reset.setTables listedTables

/-- The matrix for `(n, k)` in place. -/
def matrixFor (n k : Nat) (g : ByteMatrix) : State := inited.setMatrix g n k

/-- `BUILD 6, 4` done, the matrix as R139 writes it. -/
def built64 : State := matrixFor 6 4
  [[1, 0, 0, 0], [0, 1, 0, 0], [0, 0, 1, 0], [0, 0, 0, 1], [0x47, 0xA7, 0x7A, 0xBA], [0xA7, 0x47, 0xBA, 0x7A]]

/-- `BUILD 4, 2` done, the matrix as 95_test_vectors.md 3.3 writes it. -/
def built42 : State := matrixFor 4 2 [[1, 0], [0, 1], [0x8E, 0xF4], [0xF4, 0x8E]]

/-- `BUILD 4, 4` done: no parity rows. -/
def built44 : State := matrixFor 4 4 [[1, 0, 0, 0], [0, 1, 0, 0], [0, 0, 1, 0], [0, 0, 0, 1]]

/-- The entries `0, 1, ...` of an operand table take the listed values. -/
def withEntries (s : State) (t : OperandTable) (vs : List Word) : State :=
  (vs.zipIdx).foldl (fun s vi => s.setSlot t (Fin.ofNat 256 vi.2) vi.1) s

/-- The data bytes of R158 at one offset, `01 02 03 04`, in four one-byte blocks, and the parity buffers at `0x2000` and
`0x2008`. -/
def stripe : State :=
  (((withEntries (withEntries built64 .dptr [0x1000, 0x1008, 0x1010, 0x1018]) .fptr [0x2000, 0x2008]).setBlksz 1).setMem
    [(0x1000, 0x01), (0x1008, 0x02), (0x1010, 0x03), (0x1018, 0x04)])

/-- The stripe of R182 at one offset: data blocks 0 and 2 lost (`EE`), parity `48` and `0F` in their buffers. -/
def lossy : State :=
  (withEntries (withEntries stripe .eras [0, 2]) .fidx [4, 5]).setMem
    [(0x1000, 0xEE), (0x1008, 0x02), (0x1010, 0xEE), (0x1018, 0x04), (0x2000, 0x48), (0x2008, 0x0F)]

/-! ### One step per command -/

/-- R100: "after reset, `INIT` leaves `STATUS` = 0x00000001". -/
theorem test_init_status : (sent State.reset 0x10000000).statusWord = 0x00000001 := by decide +kernel
/-- 95_test_vectors.md 3.2: INIT after `BUILD 6, 4` keeps the matrix. -/
theorem test_init_again : (sent built64 0x10000000).statusWord = 0x00000003 ∧
    (sent built64 0x10000000).dimsWord = 0x00060004 := by decide +kernel

/-- 95_test_vectors.md 3.2: `02 · 8E`, the sum of logarithms exactly 255. -/
theorem test_gfmul_sum_255 : (sent inited 0x2000028E).resultWord = 0x00000001 := by decide +kernel
/-- 95_test_vectors.md 3.2: `FF · FF`, the sum above 255. -/
theorem test_gfmul_reduces : (sent inited 0x2000FFFF).resultWord = 0x000000E2 := by decide +kernel

/-- 95_test_vectors.md 3.2: `80 / 1D`, a negative difference of logarithms. -/
theorem test_gfdiv_wraps : (sent inited 0x3000801D).resultWord = 0x0000008E := by decide +kernel
/-- 95_test_vectors.md P1 step 6: `DIVZERO`, `RESULT` kept. -/
theorem test_gfdiv_by_zero : (sent (inited.setResult 0x02) 0x30005300).statusWord = 0x00000501 ∧
    (sent (inited.setResult 0x02) 0x30005300).resultWord = 0x00000002 := by decide +kernel

/-- 95_test_vectors.md 3.2: `inv(53) = 8C`. -/
theorem test_gfinv : (sent inited 0x40005300).resultWord = 0x0000008C := by decide +kernel
/-- 95_test_vectors.md P1 step 8. -/
theorem test_gfinv_zero : (sent inited 0x40000000).statusWord = 0x00000501 := by decide +kernel

/-- R139: the matrix of `(6, 4)`. -/
theorem test_build_6_4 : (sent inited 0x50000C04).gen = built64.gen ∧
    (sent inited 0x50000C04).dimsWord = 0x00060004 := by decide +kernel
/-- 95_test_vectors.md P4 step 10: a failing BUILD keeps the matrix in place. -/
theorem test_build_config : (sent built64 0x50025804).statusWord = 0x00000103 ∧
    (sent built64 0x50025804).gen = built64.gen := by decide +kernel

/-- 95_test_vectors.md P4 step 12. -/
theorem test_matrd : (sent built64 0x60000503).resultWord = 0x0000007A := by decide +kernel
/-- 95_test_vectors.md P4 step 11. -/
theorem test_matrd_index : (sent built64 0x60000600).statusWord = 0x00000303 := by decide +kernel

/-- R158: parity bytes `48` and `0F`. -/
theorem test_encode : (sent stripe 0x70000404).mem.read 0x2000 = 0x48 ∧
    (sent stripe 0x70000404).mem.read 0x2008 = 0x0F := by decide +kernel
/-- 95_test_vectors.md 3.4: a parity buffer that leaves `MEM` is `BADBUF` and nothing is written. -/
theorem test_encode_badBuf :
    (sent ((withEntries stripe .fptr [0x2000, 0xFFFFFFF9]).setBlksz 8) 0x70000404).statusWord = 0x00000903 ∧
    (sent ((withEntries stripe .fptr [0x2000, 0xFFFFFFF9]).setBlksz 8) 0x70000404).mem = stripe.mem := by decide +kernel

/-- R182: the recovered bytes `01` and `03`. -/
theorem test_decode_recovers : (sent lossy 0x80080404).mem.read 0x1000 = 0x01 ∧
    (sent lossy 0x80080404).mem.read 0x1010 = 0x03 := by decide +kernel
/-- 95_test_vectors.md 3.5: `FIDX = (4, 0x104)`, the full 32-bit compare. -/
theorem test_decode_index : (sent (withEntries lossy .fidx [4, 0x104]) 0x80080404).statusWord = 0x00000303 := by
  decide +kernel

/-! ### Functions of the decoder and of the port -/

/-- R174, R182: the inverse at the end of the worked elimination. -/
theorem test_invert : invert listedTables 4 (decodeMatrix lossy 4 2) =
    some [[0x3C, 0x8F, 0x36, 0xD3], [0, 1, 0, 0], [0x24, 0xB3, 0x2D, 0x8F], [0, 0, 0, 1]] := by decide +kernel
/-- 95_test_vectors.md 3.5: a swap at column 0. -/
theorem test_invert_swap : invert listedTables 3 [[0, 2, 1], [1, 0, 0], [3, 1, 0]] =
    some [[0, 1, 0], [0, 3, 1], [1, 6, 2]] := by decide +kernel
/-- 95_test_vectors.md 3.5: a singular matrix. -/
theorem test_invert_singular : invert listedTables 2 [[1, 2], [2, 4]] = none := by decide +kernel
/-- 95_test_vectors.md P4 step 2: an illegal word before INIT is `ILLCMD`. -/
theorem test_illegal_word : (sent State.reset 0x88000000).statusWord = 0x00000800 := by decide +kernel
/-- 95_test_vectors.md 3.6: `WR DPTR[255]` at offset 0x07FC. -/
theorem test_register_map : regAt 0x07FC = some (.slot .dptr 255) ∧ regAt 0x1000 = some (.slot .eras 0) ∧
    regAt 0x0014 = none ∧ regAt 0x1400 = none := by decide

/-- The first command of a run from reset: the decoder gives it and the step runs it. -/
theorem test_first_command : decodeTableWord 32 0x50000C04 = some (.build 6 4) ∧
    (sent State.reset 0x50000C04).statusWord = 0x00000600 := by decide +kernel

/-! ### Witnesses: for every obligation with hypotheses, a concrete state and operands that meet them -/

/-- DecodeOfEncode, at the top of every field. -/
theorem witness_DecodeOfEncode : wellFormed (.decode 511 511 511) = true := by decide

/-- EncodeOfDecode. -/
theorem witness_EncodeOfDecode : decode 0x87FFFFFF = .ok (.decode 511 511 511) := by decide

/-- 95_test_vectors.md 3.1: `0x50040000` matches no row of R74. -/
theorem test_no_row_matches : (rows.all fun r => (0x50040000 : Word) &&& r.2 != r.1) = true := by decide

/-- IllegalWordRaisesIllcmd, before INIT. -/
theorem witness_IllegalWordRaisesIllcmd : (stageCommand State.reset 0x50040000).pending = .wr 0x0000 0x50040000 :: [] ∧
    ∀ r ∈ rows, (0x50040000 : Word) &&& r.2 ≠ r.1 := ⟨rfl, by simpa using test_no_row_matches⟩

/-- StepRunsDecodedCommand. -/
theorem witness_StepRunsDecodedCommand : (stageCommand inited 0x50000C04).pending = .wr 0x0000 0x50000C04 :: [] ∧
    decode 0x50000C04 = .ok (.build 6 4) := by decide

/-- InitBuildsTables, both clauses. -/
theorem witness_InitBuildsTables : State.reset.tv = false ∧ inited.tv = true := ⟨rfl, rfl⟩

/-- TablesEnumerateTheField, FieldLaws, ParityIsLinear: the listed tables are valid. -/
theorem witness_tablesBuilt : tablesBuilt listedTables := test_listed_tables

/-- GfmulLooksUpTheSum, GfdivLooksUpTheDifference, GfinvLooksUpTheComplement: zero and nonzero operands. -/
theorem witness_scalars : inited.tv = true ∧ (0xFF : Byte) ≠ 0#8 ∧ (0x00 : Byte) = 0#8 := by decide

/-- GfmulIsThePolynomialProduct, GfinvUndoesItself. -/
theorem witness_scalars_built : inited.tv = true ∧ tablesBuilt inited.tables ∧ (0x53 : Byte) ≠ 0#8 :=
  ⟨rfl, witness_tablesBuilt, by decide⟩

/-- BuildFillsTheMatrix, at the ends of the range. -/
theorem witness_BuildFillsTheMatrix :
    inited.tv = true ∧ legalDims 1 1 ∧ legalDims 256 1 ∧ legalDims 256 256 := by decide

/-- BuildRejectsIllegalDims, each clause at its boundary. -/
theorem witness_BuildRejectsIllegalDims : inited.tv = true ∧ (0 < 1 ∨ 4 < 0 ∨ 4 > 256) ∧ (4 < 1 ∨ 3 < 4 ∨ 3 > 256) ∧
    (1 < 1 ∨ 257 < 1 ∨ 257 > 256) := by decide

/-- MatrixIsAPrefixOfTheLarger: two different valid tables, `LOG[0x00]` apart, and `n < n'`. -/
theorem witness_MatrixIsAPrefixOfTheLarger :
    tablesBuilt (builtTables listedTables) ∧ tablesBuilt (builtTables ⟨listedTables.exp, listedTables.exp⟩) ∧
      5 ≤ 6 ∧ 6 ≤ 256 :=
  ⟨tablesBuilt_builtTables _, tablesBuilt_builtTables _, by decide, by decide⟩

/-- The invariant of a built state, from its parts. -/
theorem inv_built64 : Invariant built64 :=
  ⟨fun _ => witness_tablesBuilt, fun _ => ⟨rfl, by decide +kernel⟩, fun h => absurd h (by decide +kernel), by decide +kernel⟩

/-- ParityEntriesAreNonzero, at the first and last parity entry. -/
theorem witness_ParityEntriesAreNonzero : Invariant built64 ∧ built64.mv = true ∧
    (4 < built64.dimN.toNat ∧ built64.dimK.toNat ≤ 4 ∧ 0 < built64.dimK.toNat) ∧
    (5 < built64.dimN.toNat ∧ built64.dimK.toNat ≤ 5 ∧ 3 < built64.dimK.toNat) :=
  ⟨inv_built64, rfl, by decide, by decide⟩

/-- AnyKRowsAreInvertible: identity and parity rows mixed and out of order. -/
theorem witness_AnyKRowsAreInvertible : tablesBuilt listedTables ∧ legalDims 6 4 ∧ [5, 1, 4, 3].length = 4 ∧
    [5, 1, 4, 3].Nodup ∧ ∀ r ∈ [5, 1, 4, 3], r < 6 :=
  ⟨witness_tablesBuilt, by decide, by decide, by decide, by decide⟩

/-- MatrdReadsOneEntry, each clause: the last entry, no matrix, one row and one column too far. -/
theorem witness_MatrdReadsOneEntry : built64.tv = true ∧ built64.mv = true ∧ 5 < built64.dimN.toNat ∧
    3 < built64.dimK.toNat ∧ inited.tv = true ∧ inited.mv = false ∧ built64.dimN.toNat ≤ 6 ∧ built64.dimK.toNat ≤ 4 := by
  decide

/-- The stripe of R158 is ready to be encoded. -/
theorem ready_stripe : encodeReady stripe 4 2 := by decide +kernel

/-- EncodeWritesTheParitySums. -/
theorem witness_EncodeWritesTheParitySums : stripe.mem.wf ∧ encodeReady stripe 4 2 := ⟨by decide, ready_stripe⟩

/-- EncodeChecksInOrder, `NOMATRIX`: no matrix, another `k`, another `m`. -/
theorem witness_EncodeChecksInOrder_noMatrix : inited.tv = true ∧ inited.mv = false ∧ built64.tv = true ∧
    3 ≠ built64.dimK.toNat ∧ 1 + built64.dimK.toNat ≠ built64.dimN.toNat := by decide

/-- EncodeChecksInOrder, `BADBUF`: the last data buffer, then the last parity buffer, one byte too high. -/
theorem witness_EncodeChecksInOrder_badBuf :
    let s := (withEntries stripe .dptr [0, 8, 16, 0xFFFFFFF9]).setBlksz 8
    let s' := (withEntries stripe .fptr [0x2000, 0xFFFFFFF9]).setBlksz 8
    s.tv = true ∧ s.mv = true ∧ 4 = s.dimK.toNat ∧ 2 + s.dimK.toNat = s.dimN.toNat ∧
      (∃ c < 4, s.entry .dptr c + s.blockSize > 2 ^ 32) ∧ ∃ i < 2, s'.entry .fptr i + s'.blockSize > 2 ^ 32 := by
  decide +kernel

/-- EncodeRefusesOverlap: two parity buffers that share their last byte, and a parity buffer that is a data buffer. -/
theorem witness_EncodeRefusesOverlap :
    let s := (withEntries stripe .fptr [0x2000, 0x2007]).setBlksz 8
    let s' := withEntries stripe .fptr [0x2000, 0x1018]
    (s.tv = true ∧ s.mv = true ∧ 4 = s.dimK.toNat ∧ 2 + s.dimK.toNat = s.dimN.toNat ∧
      (∀ c < 4, s.entry .dptr c + s.blockSize ≤ 2 ^ 32) ∧ (∀ i < 2, s.entry .fptr i + s.blockSize ≤ 2 ^ 32) ∧
      inBuffer s.blockSize (s.entry .fptr 1) 0x2007 ∧ inBuffer s.blockSize (s.entry .fptr 0) 0x2007) ∧
    (∀ c < 4, s'.entry .dptr c + s'.blockSize ≤ 2 ^ 32) ∧ (∀ i < 2, s'.entry .fptr i + s'.blockSize ≤ 2 ^ 32) ∧
      inBuffer s'.blockSize (s'.entry .fptr 1) 0x1018 ∧ inBuffer s'.blockSize (s'.entry .dptr 3) 0x1018 := by
  decide +kernel

/-- EmptyEncodeOnlySetsErr: no parity row with data buffers at the top of memory, and `BLKSZ = 0`. -/
theorem witness_EmptyEncodeOnlySetsErr :
    let s := (withEntries built44 .dptr [0, 0, 0, 0xFFFFFFFF]).setBlksz 1
    let s' := stripe.setBlksz 0
    (s.tv = true ∧ s.mv = true ∧ 4 = s.dimK.toNat ∧ 0 + s.dimK.toNat = s.dimN.toNat ∧
      ∀ c < 4, s.entry .dptr c + s.blockSize ≤ 2 ^ 32) ∧
    s'.tv = true ∧ s'.mv = true ∧ 4 = s'.dimK.toNat ∧ 2 + s'.dimK.toNat = s'.dimN.toNat ∧ s'.blksz = 0 := by
  decide +kernel

/-- DecodeWithoutErasures, with every parity block listed. -/
theorem witness_DecodeWithoutErasures : decodeIndicesLegal lossy 4 0 2 := by decide +kernel

/-- DecodeMatrixRows, SourceOfAPosition: position 0 is erased, position 1 is not. -/
theorem witness_DecodeMatrixRows : (∀ t < 2, ∀ u < t, lossy.entry .eras t ≠ lossy.entry .eras u) ∧
    lossy.entry .eras 0 = 0 ∧ ¬ isErased lossy 2 1 := by decide +kernel

/-- InvertGivesTheInverse, both clauses. -/
theorem witness_InvertGivesTheInverse : tablesBuilt listedTables ∧
    (invert listedTables 2 [[0xF4, 0x8E], [0x8E, 0xF4]] = some [[0x0C, 0x0A], [0x0A, 0x0C]]) ∧
    (∀ row ∈ ([[0xF4, 0x8E], [0x8E, 0xF4]] : ByteMatrix), row.length = 2) ∧
    invert listedTables 2 [[1, 2], [2, 4]] = none :=
  ⟨witness_tablesBuilt, by decide +kernel, by decide, test_invert_singular⟩

/-- The stripe of R182 is ready to be decoded. -/
theorem ready_lossy : decodeReady lossy 4 2 2 := ⟨by decide, by decide +kernel, by decide +kernel⟩

theorem inv_lossy : Invariant lossy :=
  ⟨fun _ => witness_tablesBuilt, fun _ => ⟨rfl, by decide +kernel⟩, fun h => absurd h (by decide +kernel), by decide +kernel⟩

/-- DecodeWritesTheRecoveredSums. -/
theorem witness_DecodeWritesTheRecoveredSums : lossy.mem.wf ∧ decodeReady lossy 4 2 2 ∧
    invert lossy.tables 4 (decodeMatrix lossy 4 2) =
      some [[0x3C, 0x8F, 0x36, 0xD3], [0, 1, 0, 0], [0x24, 0xB3, 0x2D, 0x8F], [0, 0, 0, 1]] :=
  ⟨by decide, ready_lossy, test_invert⟩

/-- DecodeRefusesOverlap: the placeholder of block 0 shares its byte with a placeholder, a surviving data buffer, a parity
buffer; the other premises are those of the stripe of R182. -/
theorem witness_DecodeRefusesOverlap :
    (∀ ptrs ∈ [([0x1000, 0x1008, 0x1000, 0x1018] : List Word), [0x1008, 0x1008, 0x1010, 0x1018],
        [0x2008, 0x1008, 0x1010, 0x1018]],
      decodeIndicesLegal (withEntries lossy .dptr ptrs) 4 2 2 ∧
      (∀ p < 4, (withEntries lossy .dptr ptrs).entry .dptr p + (withEntries lossy .dptr ptrs).blockSize ≤ 2 ^ 32) ∧
      (∀ t < 2, (withEntries lossy .dptr ptrs).entry .fptr t + (withEntries lossy .dptr ptrs).blockSize ≤ 2 ^ 32) ∧
      (invert (withEntries lossy .dptr ptrs).tables 4 (decodeMatrix (withEntries lossy .dptr ptrs) 4 2)).isSome) ∧
    (let s := withEntries lossy .dptr [0x1000, 0x1008, 0x1000, 0x1018];
      inBuffer s.blockSize (s.entry .dptr (s.entry .eras 0)) 0x1000 ∧ 2 ≠ s.entry .eras 0 ∧
        inBuffer s.blockSize (s.entry .dptr 2) 0x1000) ∧
    (let s := withEntries lossy .dptr [0x1008, 0x1008, 0x1010, 0x1018];
      inBuffer s.blockSize (s.entry .dptr (s.entry .eras 0)) 0x1008 ∧ 1 ≠ s.entry .eras 0 ∧
        inBuffer s.blockSize (s.entry .dptr 1) 0x1008) ∧
    (let s := withEntries lossy .dptr [0x2008, 0x1008, 0x1010, 0x1018];
      inBuffer s.blockSize (s.entry .dptr (s.entry .eras 0)) 0x2008 ∧ inBuffer s.blockSize (s.entry .fptr 1) 0x2008) :=
  ⟨by decide +kernel, by decide +kernel, by decide +kernel, by decide +kernel⟩

/-- What a DECODE of the stripe of R182 answers. -/
theorem exec_lossy : exec (.decode 4 2 2) lossy = .next (decodedState lossy
    [[0x3C, 0x8F, 0x36, 0xD3], [0, 1, 0, 0], [0x24, 0xB3, 0x2D, 0x8F], [0, 0, 0, 1]] 4 2) := by
  have h : invert lossy.tables 4 (decodeMatrix lossy 4 2) = _ := test_invert
  rw [exec, execDecode_of_ready ready_lossy, h]

/-- DecodeIsNeverSingular, both clauses. -/
theorem witness_DecodeIsNeverSingular : Invariant lossy ∧ decodeReady lossy 4 2 2 ∧
    ∃ t, exec (.decode 4 2 2) lossy = .next t :=
  ⟨inv_lossy, ready_lossy, _, exec_lossy⟩

/-- DecodeRestoresTheOriginalData: the original data is `01 02 03 04` (R158, R182). -/
theorem witness_DecodeRestoresTheOriginalData : Invariant lossy ∧ decodeReady lossy 4 2 2 ∧
    (∀ c < 4, ¬ isErased lossy 2 c → ∀ x < lossy.blockSize,
      lossy.mem.read (lossy.entry .dptr c + x) = BitVec.ofNat 8 (c + 1)) ∧
    ∀ t < 2, ∀ x < lossy.blockSize, lossy.mem.read (lossy.entry .fptr t + x) =
      xorSum (fun c => lossy.tables.mul (entryAt lossy.gen (lossy.entry .fidx t) c) (BitVec.ofNat 8 (c + 1))) 4 :=
  ⟨inv_lossy, ready_lossy, by decide +kernel, by decide +kernel⟩

/-- SurplusParityIsIgnored, at the first surplus entry. -/
theorem witness_SurplusParityIsIgnored : 2 ≤ (2 : Fin 256).val ∧ ∃ t, exec (.decode 4 2 2) lossy = .next t :=
  ⟨by decide, _, exec_lossy⟩

/-- PlaceholderContentsDoNotMatter: another byte in the placeholder of block 0. -/
theorem witness_PlaceholderContentsDoNotMatter : lossy.mem.wf ∧ (lossy.mem.write 0x1000 0x55).wf ∧
    decodeReady lossy 4 2 2 ∧
    (∀ b, (∀ j < 2, ¬ inBuffer lossy.blockSize (lossy.entry .dptr (lossy.entry .eras j)) b) →
      (lossy.mem.write 0x1000 0x55).read b = lossy.mem.read b) ∧
    ∃ t, exec (.decode 4 2 2) lossy = .next t ∧ t.err = .ok := by
  refine ⟨by decide, by decide, ready_lossy, fun b hb => ?_, _, exec_lossy, rfl⟩
  refine Memory.read_write_of_ne (by decide) ?_ _
  rintro rfl
  exact hb 0 (by decide) (by decide +kernel)

/-- CommandsBeforeInitRaiseNotinit. -/
theorem witness_CommandsBeforeInitRaiseNotinit : Instr.build 6 4 ≠ .init ∧ State.reset.tv = false := by decide

/-- FailureChangesOnlyErr, EachCommandRaisesItsOwnErrors, CommandFrames: a failing and a successful command. -/
theorem witness_FailureChangesOnlyErr : exec (.gfdiv 1 0) inited = .next (inited.setErr .divZero) ∧
    (inited.setErr .divZero).err ≠ .ok := ⟨by rfl, by decide⟩

/-- EveryCommandIsIdempotent: commands that write block memory. -/
theorem witness_EveryCommandIsIdempotent : stripe.mem.wf ∧ lossy.mem.wf ∧ (∃ t, exec (.encode 4 2) stripe = .next t) ∧
    ∃ t, exec (.decode 4 2 2) lossy = .next t :=
  ⟨by decide, by decide, ⟨_, execEncode_of_ready ready_stripe⟩, _, exec_lossy⟩

/-- BytesOutsideTheWrittenBuffers, both clauses, at the byte after the last buffer written. -/
theorem witness_BytesOutsideTheWrittenBuffers : stripe.mem.wf ∧ lossy.mem.wf ∧
    (∃ t, exec (.encode 4 2) stripe = .next t) ∧ (∀ i < 2, ¬ inBuffer stripe.blockSize (stripe.entry .fptr i) 0x2009) ∧
    (∃ t, exec (.decode 4 2 2) lossy = .next t) ∧
    ∀ j < 2, ¬ inBuffer lossy.blockSize (lossy.entry .dptr (lossy.entry .eras j)) 0x1011 :=
  ⟨by decide, by decide, ⟨_, execEncode_of_ready ready_stripe⟩, by decide +kernel, ⟨_, exec_lossy⟩, by decide +kernel⟩

/-- StatusWordLayout, ReadOnlyWordLayouts: a read of each register, with and without a matrix. -/
theorem witness_reads : (built64.setPending [.rd 0x0004]).pending = .rd 0x0004 :: [] ∧
    (built64.setPending [.rd 0x0010]).mv = true ∧ (inited.setPending [.rd 0x0010]).mv = false := by decide

/-- WritesToReadOnlyRegistersAreIgnored. -/
theorem witness_WritesToReadOnlyRegistersAreIgnored :
    (built64.setPending [.wr 0x0004 0xFFFFFFFF]).pending = .wr 0x0004 0xFFFFFFFF :: [] := by decide

/-- WrittenRegisterReadsBack, at `BLKSZ` and at an end of each operand table: the offsets and the states left. -/
theorem witness_WrittenRegisterReadsBack :
    (∀ off ∈ [0x000C, 0x0400, 0x0BFC, 0x0C00, 0x13FC],
      (built64.setPending [.wr off 0x104, .rd off]).pending = .wr off 0x104 :: .rd off :: []) ∧
    0x0400 = 0x0400 + 4 * (0 : Fin 256).val ∧ 0x0BFC = 0x0800 + 4 * (255 : Fin 256).val ∧
    0x0C00 = 0x0C00 + 4 * (0 : Fin 256).val ∧ 0x13FC = 0x1000 + 4 * (255 : Fin 256).val :=
  ⟨fun _ _ => rfl, by decide, by decide, by decide, by decide⟩

/-- ReservedOffsetsAreRefused, each clause at its boundaries. -/
theorem witness_ReservedOffsetsAreRefused :
    (built64.setPending [.rd 0x03FF]).pending = .rd 0x03FF :: [] ∧ 0x03FF % 4 ≠ 0 ∧
    (0x0014 ≤ 0x0014 ∧ 0x0014 < 0x0400) ∧ (0x0014 ≤ 0x03FC ∧ 0x03FC < 0x0400) ∧ 0x1400 ≤ 0x1400 ∧
    (0x0010 % 4 = 0 ∧ 0x0010 < 0x0014) ∧ (0x13FC % 4 = 0 ∧ 0x13FC < 0x1400) := by decide

/-- StoredBytesLoadBack, each clause: the last two bytes of `MEM` stored and loaded, and one byte beyond. -/
theorem witness_StoredBytesLoadBack :
    (State.reset.setPending [.st 0xFFFFFFFE [1, 2], .ld 0xFFFFFFFE 2]).mem.wf ∧
    (State.reset.setPending [.st 0xFFFFFFFE [1, 2], .ld 0xFFFFFFFE 2]).pending =
      .st 0xFFFFFFFE [1, 2] :: .ld 0xFFFFFFFE ([1, 2] : List Byte).length :: [] ∧
    0xFFFFFFFE + ([1, 2] : List Byte).length ≤ 2 ^ 32 ∧
    (State.reset.setPending [.st 0xFFFFFFFF [1, 2]]).pending = .st 0xFFFFFFFF [1, 2] :: [] ∧
    2 ^ 32 < 0xFFFFFFFF + ([1, 2] : List Byte).length ∧
    (State.reset.setPending [.ld 0xFFFFFFFE 2]).pending = .ld 0xFFFFFFFE 2 :: [] ∧ 0xFFFFFFFE + 2 ≤ 2 ^ 32 ∧
    (State.reset.setPending [.ld 0xFFFFFFFF 2]).pending = .ld 0xFFFFFFFF 2 :: [] ∧ 2 ^ 32 < 0xFFFFFFFF + 2 :=
  ⟨Memory.wf_nil, rfl, by decide, rfl, by decide, rfl, by decide, rfl, by decide⟩

/-- ResetClearsTheEngineAndKeepsMemory, IdleEngineHoldsItsState. -/
theorem witness_reset_and_idle : (lossy.setPending [.reset]).pending = .reset :: [] ∧ lossy.pending = [] := by decide

/-- ValidTablesAndMatrixAreImmutable, EveryStepKeepsTheInvariant: a step of the engine with tables and matrix valid. -/
theorem witness_steps : Invariant (stageCommand built64 0x10000000) ∧
    step (stageCommand built64 0x10000000) = .next built64 ∧
    (stageCommand built64 0x10000000).pending.head? ≠ some .reset ∧ (stageCommand built64 0x10000000).tv = true ∧
    (stageCommand built64 0x10000000).mv = true ∧
    ∀ w n k, (stageCommand built64 0x10000000).pending.head? = some (.wr 0x0000 w) → decode w ≠ .ok (.build n k) := by
  refine ⟨inv_built64, by rfl, by decide, rfl, rfl, fun w n k h => ?_⟩
  have : w = 0x10000000 := by
    simp only [stageCommand, setPending_pending, List.head?_cons, Option.some.injEq, HostMove.wr.injEq, true_and] at h
    exact h.symm
  rw [this, show decode 0x10000000 = .ok .init by decide]
  simp

end Sys2Proof.Tests
end

section
/-! Proofs: everything a command can do, said once. -/

namespace Sys2Proof.Machine

/-- The commands whose success leaves a byte in `RESULT` (R27). -/
inductive WritesResult : Instr → Prop
  | gfmul (a b : Byte) : WritesResult (.gfmul a b)
  | gfdiv (a b : Byte) : WritesResult (.gfdiv a b)
  | gfinv (a : Byte) : WritesResult (.gfinv a)
  | matrd (row col : Nat) : WritesResult (.matrd row col)

/-- The commands whose success stores to block memory (R58). -/
inductive WritesMemory : Instr → Prop
  | encode (k m : Nat) : WritesMemory (.encode k m)
  | decode (k e a : Nat) : WritesMemory (.decode k e a)

/-- `CommandEffect s i t`: what the command `i` at `s` can have done when it answers `t`. -/
inductive CommandEffect (s : State) : Instr → State → Prop
  /-- Only `ERR` has changed: the command failed with an error of its own (R211, R213), or it had nothing to do. -/
  | onlyErr {i : Instr} {e : Err} (h : e = .ok ∨ e ∈ raisable i) : CommandEffect s i (s.setErr e)
  /-- The first INIT (R100). -/
  | tables (h : s.tv = false) : CommandEffect s .init ((s.setTables (builtTables s.tables)).setErr .ok)
  /-- A command that leaves a byte in `RESULT` (R27). -/
  | result {i : Instr} (htv : s.tv = true) (h : WritesResult i) (v : Byte) :
      CommandEffect s i ((s.setResult v).setErr .ok)
  /-- A BUILD of legal dimensions (R130). -/
  | matrix {n k : Nat} (htv : s.tv = true) (h : legalDims n k) :
      CommandEffect s (.build n k) ((s.setMatrix (generatorMatrix s.tables n k h.2.2) n k).setErr .ok)
  /-- A command that stores blocks inside `MEM` (R57, R58). -/
  | store {i : Instr} (h : WritesMemory i) {bs : List (Nat × List Byte)}
      (hin : ∀ b ∈ bs, insideMem b.1 b.2.length) :
      CommandEffect s i ((s.setMem (storeBlocks s.mem bs)).setErr .ok)

/-- INIT: `OK` alone with valid tables, else the tables (R100). -/
theorem execInit_cases (s : State) :
    (s.tv = true ∧ execInit s = .next (s.setErr .ok)) ∨
      (s.tv = false ∧ execInit s = .next ((s.setTables (builtTables s.tables)).setErr .ok)) := by
  cases h : s.tv <;> simp [execInit, h]

/-- A command answers one state. -/
theorem CommandEffect.of_answer {i : Instr} {s t u : State} (hu : exec i s = .next u) (ht : exec i s = .next t)
    (he : CommandEffect s i u) : CommandEffect s i t := by
  cases hu.symm.trans ht
  exact he

/-- Whatever a command answers, it is one of its effects. -/
theorem exec_effect {i : Instr} {s t : State} (h : exec i s = .next t) : CommandEffect s i t := by
  cases i with
  | init =>
    rcases execInit_cases s with ⟨-, hs⟩ | ⟨htv, hs⟩
    · exact .of_answer hs h (.onlyErr (.inl rfl))
    · exact .of_answer hs h (.tables htv)
  | gfmul a b =>
    rcases execGfmul_cases a b s with ⟨-, hs⟩ | ⟨htv, hs⟩
    · exact .of_answer hs h (.onlyErr (.inr (by simp [raisable])))
    · exact .of_answer hs h (.result htv (.gfmul _ _) _)
  | gfdiv a b =>
    rcases execGfdiv_cases a b s with ⟨-, hs⟩ | ⟨-, -, hs⟩ | ⟨htv, _, hs⟩
    · exact .of_answer hs h (.onlyErr (.inr (by simp [raisable])))
    · exact .of_answer hs h (.onlyErr (.inr (by simp [raisable])))
    · exact .of_answer hs h (.result htv (.gfdiv _ _) _)
  | gfinv a =>
    rcases execGfinv_cases a s with ⟨-, hs⟩ | ⟨-, -, hs⟩ | ⟨htv, _, hs⟩
    · exact .of_answer hs h (.onlyErr (.inr (by simp [raisable])))
    · exact .of_answer hs h (.onlyErr (.inr (by simp [raisable])))
    · exact .of_answer hs h (.result htv (.gfinv _) _)
  | build n k =>
    rcases execBuild_cases n k s with ⟨-, hs⟩ | ⟨-, -, hs⟩ | ⟨htv, hl, hs⟩
    · exact .of_answer hs h (.onlyErr (.inr (by simp [raisable])))
    · exact .of_answer hs h (.onlyErr (.inr (by simp [raisable])))
    · exact .of_answer hs h (.matrix htv hl)
  | matrd row col =>
    rcases execMatrd_cases row col s with ⟨e, he, hs⟩ | ⟨htv, -, -, -, hs⟩
    · exact .of_answer hs h (.onlyErr (.inr he))
    · exact .of_answer hs h (.result htv (.matrd _ _) _)
  | encode k m =>
    rcases execEncode_cases k m s with ⟨e, he, hs⟩ | hs | ⟨hr, hs⟩
    · exact .of_answer hs h (.onlyErr (.inr he))
    · cases hs.symm.trans h
    · exact .of_answer hs h (.store (.encode _ _) (parityBlocks_inside hr))
  | decode k e a =>
    rcases execDecode_cases k e a s with ⟨err, herr, hs⟩ | ⟨-, -, hs⟩ | ⟨-, -, hs⟩ | hs | ⟨hr, v, -, hs⟩
    · exact .of_answer hs h (.onlyErr (.inr (List.mem_append_left [Err.singular] herr)))
    · exact .of_answer hs h (.onlyErr (.inl rfl))
    · exact .of_answer hs h (.onlyErr (.inr (by simp [raisable])))
    · cases hs.symm.trans h
    · exact .of_answer hs h (.store (.decode _ _ _) (recoveredBlocks_inside hr))

end Sys2Proof.Machine
end

section
/-! Proofs: the host's moves and the register port, one rule per move (R82, R83, R221, R230, R241). -/

namespace Sys2Proof.Machine

/-! ### One step is one move -/

/-- The step makes the first pending move (R241). -/
theorem step_of_pending {s : State} {a : HostMove} {rest : List HostMove} (h : s.pending = a :: rest) :
    step s = hostMove a (s.setPending rest) := by simp [step, advance, h]

/-- A register write is the write of the register at its offset (R82). -/
theorem hostMove_wr {off : Nat} {r : Reg} (h : regAt off = some r) (v : Word) (s : State) :
    hostMove (.wr off v) s = writeReg r v s := by simp [hostMove, h]

/-- A register read leaves its word in `reply` and nothing else (R83). -/
theorem hostMove_rd {off : Nat} {r : Reg} (h : regAt off = some r) (s : State) :
    hostMove (.rd off) s = .next (s.setReply (.word (readReg r s))) := by simp [hostMove, h]

/-- A word that decodes runs its command (R30, R81). -/
theorem submit_of_ok {w : Word} {i : Instr} (h : decode w = .ok i) (s : State) : submit w s = exec i s := by
  simp [submit, h]

/-- A word that does not decode is `ILLCMD` (R81). -/
theorem submit_of_error {w : Word} {x : Illegal} (h : decode w = .error x) (s : State) :
    submit w s = .next (s.setErr .illCmd) := by simp [submit, h]

/-- The step of a pending register read (R83). -/
theorem step_rd {s : State} {off : Nat} {rest : List HostMove} {r : Reg} (h : s.pending = .rd off :: rest)
    (hr : regAt off = some r) :
    step s = .next ((s.setPending rest).setReply (.word (readReg r (s.setPending rest)))) := by
  rw [step_of_pending h, hostMove_rd hr]

/-- A host access that answers lies inside `MEM` (R50) and answers what its body does. -/
theorem hostAccess_next {addr len : Nat} {body : Result} {t : State} (h : hostAccess addr len body = .next t) :
    insideMem addr len ∧ body = .next t := by
  unfold hostAccess at h
  split at h
  · cases h
  · next hin =>
    split at h
    · cases h
    · exact ⟨not_not.mp hin, h⟩

/-! ### The registers a write changes -/

/-- The state a write of `v` to a register other than `CMD` leaves: `BLKSZ` and the operand tables take the word, a
read-only register ignores it (R83). -/
def updateReg (r : Reg) (v : Word) (s : State) : State :=
  match r with
  | .blksz => s.setBlksz v
  | .slot t i => s.setSlot t i v
  | _ => s

/-- A write to a register other than `CMD` is the update of that register. -/
theorem writeReg_of_ne_cmd {r : Reg} (h : r ≠ .cmd) (v : Word) (s : State) :
    writeReg r v s = .next (updateReg r v s) := by
  cases r with
  | cmd => exact absurd rfl h
  | _ => rfl

section Frame

variable (r : Reg) (v : Word) (s : State)

@[simp] theorem updateReg_tables : (updateReg r v s).tables = s.tables := by cases r <;> simp [updateReg]
@[simp] theorem updateReg_tv : (updateReg r v s).tv = s.tv := by cases r <;> simp [updateReg]
@[simp] theorem updateReg_gen : (updateReg r v s).gen = s.gen := by cases r <;> simp [updateReg]
@[simp] theorem updateReg_dimN : (updateReg r v s).dimN = s.dimN := by cases r <;> simp [updateReg]
@[simp] theorem updateReg_dimK : (updateReg r v s).dimK = s.dimK := by cases r <;> simp [updateReg]
@[simp] theorem updateReg_mv : (updateReg r v s).mv = s.mv := by cases r <;> simp [updateReg]
@[simp] theorem updateReg_err : (updateReg r v s).err = s.err := by cases r <;> simp [updateReg]
@[simp] theorem updateReg_result : (updateReg r v s).result = s.result := by cases r <;> simp [updateReg]
@[simp] theorem updateReg_mem : (updateReg r v s).mem = s.mem := by cases r <;> simp [updateReg]

/-- The register updates and the list of moves do not meet. -/
theorem updateReg_setPending (ms : List HostMove) :
    updateReg r v (s.setPending ms) = (updateReg r v s).setPending ms := by
  cases r with
  | slot t i => cases t <;> rfl
  | _ => rfl

end Frame

/-- The registers that keep what the host writes (R28, R31 to R34). -/
def keepsWrites : Reg → Bool
  | .blksz | .slot _ _ => true
  | _ => false

/-- A register that keeps what is written reads it back. -/
theorem readReg_updateReg_self {r : Reg} (h : keepsWrites r = true) (v : Word) (s : State) :
    readReg r (updateReg r v s) = v := by
  cases r with
  | blksz => rfl
  | slot t i => simp [readReg, updateReg]
  | _ => cases h

/-- Every other register reads as before. -/
theorem readReg_updateReg_of_ne {r r' : Reg} (h : r' ≠ r) (v : Word) (s : State) :
    readReg r' (updateReg r v s) = readReg r' s := by
  cases r' with
  | cmd => rfl
  | status => simp [readReg, State.statusWord]
  | result => simp [readReg, State.resultWord]
  | dims => simp [readReg, State.dimsWord]
  | blksz =>
    cases r with
    | blksz => exact absurd rfl h
    | slot t i => simp [readReg, updateReg]
    | _ => rfl
  | slot t' i' =>
    cases r with
    | slot t i =>
      rcases eq_or_ne t' t with rfl | ht
      · have hi : i.val ≠ i'.val := fun hc => h (by rw [Fin.ext hc])
        simp [readReg, updateReg, Vector.getElem_set_ne _ _ hi]
      · simp [readReg, updateReg, setSlot_operands_of_ne s ht]
    | blksz => simp [readReg, updateReg]
    | _ => rfl

end Sys2Proof.Machine
end

section
/-! Proofs: everything a host's move and a step can do, said once each. -/

namespace Sys2Proof.Machine

/-- `MoveEffect s a t`: what the host's move `a` at `s` can have done when it answers `t` (R243). -/
inductive MoveEffect (s : State) : HostMove → State → Prop
  /-- The write of a command word to `CMD` (R30, R81). -/
  | command {w : Word} {i : Instr} {t : State} (hw : decode w = .ok i) (h : CommandEffect s i t) :
      MoveEffect s (.wr 0x0000 w) t
  /-- The write of an illegal word to `CMD` (R209). -/
  | illegal (w : Word) : MoveEffect s (.wr 0x0000 w) (s.setErr .illCmd)
  /-- The write of another register (R83). -/
  | register {off : Nat} {r : Reg} (h : regAt off = some r) (hr : r ≠ .cmd) (v : Word) :
      MoveEffect s (.wr off v) (updateReg r v s)
  /-- A read of a register (R83). -/
  | read {off : Nat} {r : Reg} (h : regAt off = some r) :
      MoveEffect s (.rd off) (s.setReply (.word (readReg r s)))
  /-- A load from block memory (R86). -/
  | load {addr len : Nat} (h : insideMem addr len) :
      MoveEffect s (.ld addr len) (s.setReply (.bytes (loadBytes s.mem addr len)))
  /-- A store to block memory (R86). -/
  | store {addr : Nat} {bytes : List Byte} (h : insideMem addr bytes.length) :
      MoveEffect s (.st addr bytes) (s.setMem (storeBytes s.mem addr bytes))
  /-- The platform's reset (R230). -/
  | reset : MoveEffect s .reset (resetEngine s)

/-- Whatever a write to `CMD` answers, it is one of its effects (R30, R81). -/
theorem submit_effect {w : Word} {s t : State} (h : submit w s = .next t) : MoveEffect s (.wr 0x0000 w) t := by
  cases hw : decode w with
  | ok i => exact .command hw (exec_effect (submit_of_ok hw s ▸ h))
  | error x =>
    cases (submit_of_error hw s).symm.trans h
    exact .illegal w

/-- Whatever a move answers, it is one of its effects. -/
theorem hostMove_effect {a : HostMove} {s t : State} (h : hostMove a s = .next t) : MoveEffect s a t := by
  cases a with
  | wr off v =>
    cases hr : regAt off with
    | none => simp [hostMove, hr] at h
    | some r =>
      rw [hostMove_wr hr] at h
      by_cases hc : r = .cmd
      · subst hc
        have h0 : off = 0x0000 := offset_of_regAt hr
        subst h0
        exact submit_effect h
      · cases (writeReg_of_ne_cmd hc v s).symm.trans h
        exact .register hr hc v
  | rd off =>
    cases hr : regAt off with
    | none => simp [hostMove, hr] at h
    | some r =>
      cases (hostMove_rd hr s).symm.trans h
      exact .read hr
  | st addr bytes =>
    obtain ⟨hin, hb⟩ := hostAccess_next h
    cases hb
    exact .store hin
  | ld addr len =>
    obtain ⟨hin, hb⟩ := hostAccess_next h
    cases hb
    exact .load hin
  | reset =>
    cases h
    exact .reset

/-- Whatever a step answers: the idle engine holds its state (R221), or the first pending move had one of its effects
(R241). -/
theorem step_effect {s t : State} (h : step s = .next t) :
    (s.pending = [] ∧ t = s) ∨ ∃ a rest, s.pending = a :: rest ∧ MoveEffect (s.setPending rest) a t := by
  cases hp : s.pending with
  | nil =>
    simp only [step, advance, hp] at h
    cases h
    exact .inl ⟨rfl, rfl⟩
  | cons a rest => exact .inr ⟨a, rest, rfl, hostMove_effect (step_of_pending hp ▸ h)⟩

end Sys2Proof.Machine
end

section
/-! Proofs: the invariant of the machine is kept by every step (R20 to R25, R43), and the obligations on what commands
and steps can change. -/

namespace Sys2Proof.Machine

/-! ### The invariant under each update -/

section Updates

variable {s : State}

/-- The invariant does not speak of `ERR`. -/
theorem invariant_setErr (hs : Invariant s) (e : Err) : Invariant (s.setErr e) := hs

/-- The invariant does not speak of `RESULT`. -/
theorem invariant_setResult (hs : Invariant s) (v : Byte) : Invariant (s.setResult v) := hs

/-- The invariant does not speak of the host's moves. -/
theorem invariant_setPending (hs : Invariant s) (ms : List HostMove) : Invariant (s.setPending ms) := hs

/-- The invariant does not speak of what the host has read. -/
theorem invariant_setReply (hs : Invariant s) (r : Reply) : Invariant (s.setReply r) := hs

/-- The invariant does not speak of the registers the host writes. -/
theorem invariant_updateReg (hs : Invariant s) (r : Reg) (v : Word) : Invariant (updateReg r v s) := by
  simpa [Invariant, matrixBuilt] using hs

/-- Block memory is in its canonical form. -/
theorem Invariant.mem_wf (hs : Invariant s) : s.mem.wf := hs.2.2.2

/-- Block memory may be replaced by another in its canonical form. -/
theorem invariant_setMem (hs : Invariant s) {m : Memory} (hm : m.wf) : Invariant (s.setMem m) := by
  obtain ⟨ht, hg, hd, -⟩ := hs
  exact ⟨ht, hg, hd, hm⟩

/-- Without valid tables there is no matrix, so that built tables may take their place. -/
theorem invariant_setTables (hs : Invariant s) (htv : s.tv = false) {t : Tables} (ht : tablesBuilt t) :
    Invariant (s.setTables t) := by
  obtain ⟨-, hg, hd, hm⟩ := hs
  have hmv : s.mv ≠ true := fun h => absurd ((hg h).1.symm.trans htv) (by decide)
  exact ⟨fun _ => ht, fun h => absurd h hmv, hd, hm⟩

/-- The matrix of legal dimensions is built, and its dimensions fit their 9 bits (R25). -/
theorem matrixBuilt_setMatrix {n k : Nat} (h : legalDims n k) :
    matrixBuilt (s.setMatrix (generatorMatrix s.tables n k h.2.2) n k) := by
  have hn : (BitVec.ofNat 9 n).toNat = n := by simp only [BitVec.toNat_ofNat]; omega
  have hk : (BitVec.ofNat 9 k).toNat = k := by simp only [BitVec.toNat_ofNat]; omega
  exact ⟨by simpa only [setMatrix_dimN, setMatrix_dimK, hn, hk] using h,
    by simp only [setMatrix_gen, setMatrix_tables, setMatrix_dimN, setMatrix_dimK, hn, hk]⟩

/-- A matrix built from valid tables may take the place of any other. -/
theorem invariant_setMatrix (hs : Invariant s) (htv : s.tv = true) {n k : Nat} (h : legalDims n k) :
    Invariant (s.setMatrix (generatorMatrix s.tables n k h.2.2) n k) := by
  obtain ⟨ht, -, -, hm⟩ := hs
  exact ⟨ht, fun _ => ⟨htv, matrixBuilt_setMatrix h⟩, fun hmv => by simp at hmv, hm⟩

end Updates

/-- The reset state meets the invariant (R43). -/
theorem invariant_reset : Invariant State.reset :=
  ⟨nofun, nofun, fun _ => ⟨rfl, rfl⟩, Memory.wf_nil⟩

/-- The platform's reset keeps block memory and puts the engine in its reset state (R230). -/
theorem invariant_resetEngine {s : State} (hs : Invariant s) : Invariant (resetEngine s) :=
  invariant_setReply (invariant_setPending (invariant_setMem invariant_reset hs.mem_wf) _) _

/-! ### The invariant under commands, moves and steps -/

/-- The tables of INIT and the matrix of BUILD are those the invariant asks for, and stores inside `MEM` keep block memory
canonical. -/
theorem CommandEffect.keeps_invariant {s t : State} {i : Instr} (h : CommandEffect s i t) (hs : Invariant s) :
    Invariant t := by
  cases h with
  | onlyErr => exact invariant_setErr hs _
  | tables htv => exact invariant_setErr (invariant_setTables hs htv (tablesBuilt_builtTables _)) _
  | result => exact invariant_setErr (invariant_setResult hs _) _
  | matrix htv hl => exact invariant_setErr (invariant_setMatrix hs htv hl) _
  | store _ hin => exact invariant_setErr (invariant_setMem hs (wf_storeBlocks hs.mem_wf hin)) _

/-- A command, a store and the reset are the moves that touch what the invariant speaks of. -/
theorem MoveEffect.keeps_invariant {s t : State} {a : HostMove} (h : MoveEffect s a t) (hs : Invariant s) :
    Invariant t := by
  cases h with
  | command _ hc => exact hc.keeps_invariant hs
  | illegal => exact invariant_setErr hs _
  | register => exact invariant_updateReg hs _ _
  | read | load => exact invariant_setReply hs _
  | store hin => exact invariant_setMem hs (wf_storeBytes hs.mem_wf hin)
  | reset => exact invariant_resetEngine hs

/-- Settles O51: whatever the step answers is the state itself or an effect of the first pending move, and each effect
keeps the invariant. -/
theorem everyStepKeepsTheInvariant : Obligations.EveryStepKeepsTheInvariant := by
  intro s t hs h
  rcases step_effect h with ⟨-, rfl⟩ | ⟨a, rest, -, he⟩
  · exact hs
  · exact he.keeps_invariant (invariant_setPending hs rest)

/-- Settles O52: the reset state has neither tables nor a matrix, `N = K = 0` and an empty block memory. -/
theorem resetMeetsTheInvariant : Obligations.ResetMeetsTheInvariant := invariant_reset

/-! ### What commands and steps can change -/

/-- Settles O40: each effect a command can have changes the fields of its frame only. -/
theorem commandFrames : Obligations.CommandFrames := by
  intro i s t h
  cases exec_effect h with
  | onlyErr => cases i <;> rfl
  | tables => rfl
  | result _ hi => cases hi <;> rfl
  | matrix => rfl
  | store hi => cases hi <;> rfl

/-- No command changes valid tables (R23). -/
theorem CommandEffect.keeps_tables {s t : State} {i : Instr} (h : CommandEffect s i t) (htv : s.tv = true) :
    t.tv = true ∧ t.tables = s.tables := by
  cases h with
  | tables hf => exact absurd (htv.symm.trans hf) (by decide)
  | _ => exact ⟨htv, rfl⟩

/-- No command but BUILD changes the matrix or its dimensions (R25). -/
theorem CommandEffect.keeps_matrix {s t : State} {i : Instr} (h : CommandEffect s i t)
    (hi : ∀ n k, i ≠ .build n k) : t.mv = s.mv ∧ t.gen = s.gen ∧ t.dimN = s.dimN ∧ t.dimK = s.dimK := by
  cases h with
  | matrix => exact absurd rfl (hi _ _)
  | _ => exact ⟨rfl, rfl, rfl, rfl⟩

/-- No move but the platform's reset changes valid tables (R23). -/
theorem MoveEffect.keeps_tables {s t : State} {a : HostMove} (h : MoveEffect s a t) (ha : a ≠ .reset)
    (htv : s.tv = true) : t.tv = true ∧ t.tables = s.tables := by
  cases h with
  | command _ hc => exact hc.keeps_tables htv
  | register => simp [htv]
  | reset => exact absurd rfl ha
  | _ => exact ⟨htv, rfl⟩

/-- No move but the platform's reset and the write of a BUILD changes the matrix or its dimensions (R25). -/
theorem MoveEffect.keeps_matrix {s t : State} {a : HostMove} (h : MoveEffect s a t) (ha : a ≠ .reset)
    (hb : ∀ w n k, a = .wr 0x0000 w → decode w ≠ .ok (.build n k)) :
    t.mv = s.mv ∧ t.gen = s.gen ∧ t.dimN = s.dimN ∧ t.dimK = s.dimK := by
  cases h with
  | command hw hc => exact hc.keeps_matrix fun n k hi => hb _ n k rfl (hi ▸ hw)
  | register => simp
  | reset => exact absurd rfl ha
  | _ => exact ⟨rfl, rfl, rfl, rfl⟩

/-- Settles O50: only INIT without valid tables and the reset have an effect on the tables, and only BUILD and the reset
on the matrix. -/
theorem validTablesAndMatrixAreImmutable : Obligations.ValidTablesAndMatrixAreImmutable := by
  intro s t h hreset
  rcases step_effect h with ⟨-, rfl⟩ | ⟨a, rest, hp, he⟩
  · exact ⟨fun htv => ⟨htv, rfl⟩, fun hmv _ => ⟨hmv, rfl, rfl, rfl⟩⟩
  · rw [hp, List.head?_cons, ne_eq, Option.some.injEq] at hreset
    refine ⟨he.keeps_tables hreset, fun hmv hbuild => ?_⟩
    obtain ⟨hmv', hg⟩ := he.keeps_matrix hreset fun w n k ha => hbuild w n k (by rw [hp, ha, List.head?_cons])
    exact ⟨hmv'.trans hmv, hg⟩

end Sys2Proof.Machine
end

section
/-! Proofs: the words the host reads, the registers it writes, the reset, the decoded command and the field tables. -/

namespace Sys2Proof.Machine

/-! ### The words of the read-only registers -/

/-- `STATUS` as a number (R26). -/
theorem toNat_statusWord (s : State) :
    s.statusWord.toNat = s.err.code.toNat * 2 ^ 8 + s.mv.toNat * 2 + s.tv.toNat := by
  simp only [State.statusWord, toNat_append_eq, BitVec.toNat_ofNat, BitVec.toNat_ofBool]
  omega

/-- `STATUS` is zero with neither tables nor a matrix and with `OK` (R26). -/
theorem statusWord_eq_zero {s : State} (htv : s.tv = false) (hmv : s.mv = false) (herr : s.err = .ok) :
    s.statusWord = 0 := BitVec.eq_of_toNat_eq (by simp [toNat_statusWord, htv, hmv, herr, Err.code])

/-- `RESULT` as a number (R27). -/
theorem toNat_resultWord (s : State) : s.resultWord.toNat = s.result.toNat := by
  simp only [State.resultWord, toNat_append_eq, BitVec.toNat_ofNat]
  omega

/-- `RESULT` reads zero when its byte is zero (R27). -/
theorem resultWord_eq_zero {s : State} (h : s.result = 0) : s.resultWord = 0 :=
  BitVec.eq_of_toNat_eq (by simp [toNat_resultWord, h])

/-- `DIMS` with a matrix as a number (R29). -/
theorem toNat_dimsWord {s : State} (h : s.mv = true) :
    s.dimsWord.toNat = s.dimN.toNat * 2 ^ 16 + s.dimK.toNat := by
  simp only [State.dimsWord, h, if_true, toNat_append_eq, BitVec.toNat_ofNat]
  omega

/-- `DIMS` without a matrix (R29). -/
theorem dimsWord_of_no_matrix {s : State} (h : s.mv = false) : s.dimsWord = 0 := by simp [State.dimsWord, h]

/-- Settles O42: the bits of `STATUS` are those of the number `ERR * 2^8 + MV * 2 + TV`. -/
theorem statusWordLayout : Obligations.StatusWordLayout := by
  intro s rest h
  have htv : s.tv.toNat ≤ 1 := Bool.toNat_le _
  have hmv : s.mv.toNat ≤ 1 := Bool.toNat_le _
  have hcode : s.err.code.toNat < 16 := s.err.code.isLt
  refine ⟨_, step_rd h rfl, ?_⟩
  simp only [readReg, slice, toNat_statusWord, setPending_err, setPending_mv, setPending_tv]
  refine ⟨by omega, by omega, by omega, by omega, ?_⟩
  trans s.err.code.toNat
  · omega
  · cases s.err <;> rfl

/-- Settles O43: the step reads the register at the offset, and the bits of its word are those of its number. -/
theorem readOnlyWordLayouts : Obligations.ReadOnlyWordLayouts := by
  rintro s off rest h (rfl | rfl | rfl)
  · exact ⟨_, step_rd h rfl, by simp [readReg]⟩
  · have hlt : s.result.toNat < 256 := s.result.isLt
    refine ⟨_, step_rd h rfl, ?_⟩
    simp only [readReg, slice, toNat_resultWord, setPending_result]
    omega
  · have hN : s.dimN.toNat < 512 := s.dimN.isLt
    have hK : s.dimK.toNat < 512 := s.dimK.isLt
    refine ⟨_, step_rd h rfl, by simp, by simp, fun _ hmv => dimsWord_of_no_matrix hmv, fun _ hmv => ?_⟩
    simp only [readReg, slice, toNat_dimsWord (s := s.setPending rest) hmv, setPending_dimN, setPending_dimK]
    omega

/-! ### The registers the host writes -/

/-- A write of a register that keeps what is written, and its read, leave the register changed, both moves made and the
word in `reply` (R83). -/
theorem step_write_read {s : State} {off : Nat} {v : Word} {rest : List HostMove} {r : Reg}
    (h : s.pending = .wr off v :: .rd off :: rest) (hoff : regAt off = some r) (hr : r ≠ .cmd)
    (hv : ∀ s', readReg r (updateReg r v s') = v) :
    ∃ t, step s = .next t ∧ step t = .next (((updateReg r v s).setPending rest).setReply (.word v)) := by
  refine ⟨(updateReg r v s).setPending (.rd off :: rest), ?_, ?_⟩
  · rw [step_of_pending h, hostMove_wr hoff, writeReg_of_ne_cmd hr, updateReg_setPending]
  · rw [step_rd rfl hoff, setPending_setPending, ← updateReg_setPending, hv]

/-- The offsets of R82 of the registers that keep what is written, with the state a write leaves. -/
theorem exists_reg_of_offset {s u : State} {off : Nat} {v : Word}
    (h : (off = 0x000C ∧ u = { s with blksz := v }) ∨
      ∃ i : Fin 256,
        (off = 0x0400 + 4 * i.val ∧ u = { s with dptr := s.dptr.set i.val v }) ∨
        (off = 0x0800 + 4 * i.val ∧ u = { s with fptr := s.fptr.set i.val v }) ∨
        (off = 0x0C00 + 4 * i.val ∧ u = { s with fidx := s.fidx.set i.val v }) ∨
        (off = 0x1000 + 4 * i.val ∧ u = { s with eras := s.eras.set i.val v })) :
    ∃ r, keepsWrites r = true ∧ off = offsetOf r ∧ u = updateReg r v s := by
  rcases h with ⟨ho, hu⟩ | ⟨i, ⟨ho, hu⟩ | ⟨ho, hu⟩ | ⟨ho, hu⟩ | ⟨ho, hu⟩⟩
  · exact ⟨.blksz, rfl, ho, hu⟩
  · exact ⟨.slot .dptr i, rfl, ho, hu⟩
  · exact ⟨.slot .fptr i, rfl, ho, hu⟩
  · exact ⟨.slot .fidx i, rfl, ho, hu⟩
  · exact ⟨.slot .eras i, rfl, ho, hu⟩

/-- Settles O45: the offset is that of a register which keeps what is written, and two registers have two offsets. -/
theorem writtenRegisterReadsBack : Obligations.WrittenRegisterReadsBack := by
  intro s u off v rest h hu
  obtain ⟨r, hr, rfl, rfl⟩ := exists_reg_of_offset hu
  have hcmd : r ≠ .cmd := by rintro rfl; cases hr
  refine ⟨step_write_read h (regAt_offsetOf r) hcmd (readReg_updateReg_self hr v), fun off' r' hr' hne => ?_⟩
  refine readReg_updateReg_of_ne ?_ v s
  rintro rfl
  exact hne (offset_of_regAt hr')

/-! ### Reset and the decoded command -/

/-- Settles O48: the step is the reset of the engine, whose registers are those of `State.reset`. -/
theorem resetClearsTheEngineAndKeepsMemory : Obligations.ResetClearsTheEngineAndKeepsMemory := by
  intro s rest h
  exact ⟨resetEngine (s.setPending rest), step_of_pending h, rfl, rfl, rfl, rfl, rfl, rfl, rfl,
    statusWord_eq_zero rfl rfl rfl, resultWord_eq_zero rfl, rfl, dimsWord_of_no_matrix rfl, rfl, rfl⟩

/-- Settles O6: the pending move is the write of `CMD`, whose word decodes. -/
theorem stepRunsDecodedCommand : Obligations.StepRunsDecodedCommand := by
  intro s w rest i h hw
  have hcmd : regAt 0x0000 = some .cmd := rfl
  rw [step_of_pending h, hostMove_wr hcmd]
  exact submit_of_ok hw (s.setPending rest)

/-! ### The field tables -/

/-- Settles O8: entry `i` of valid `EXP` is the `i`-th power of the primitive element, whose order is 255. -/
theorem tablesEnumerateTheField : Obligations.TablesEnumerateTheField := by
  intro t ht
  have hexp : ∀ i (hi : i < 256), t.exp[i] = xtime^[i] 1 := getElem_exp_of_built ht
  refine ⟨fun i j h => ?_, fun i => ?_, (hexp 255 (by decide)).trans power_cycle, fun a => ⟨fun ha => ?_, ?_, ?_⟩⟩
  · rw [hexp, hexp] at h
    exact Fin.ext (power_inj i.isLt j.isLt h)
  · rw [hexp]
    exact power_ne_zero i.val
  · exact Tables.logOf_power ht (by decide) a ha.symm
  · exact Tables.logOf_lt ht a
  · have hlt : t.logOf a < 256 := Nat.lt_succ_of_lt (Tables.logOf_lt ht a)
    have hget : t.exp.getD (t.logOf a) 0 = t.exp[t.logOf a] := by simp [Vector.getD, hlt]
    rw [hget, hexp]
    exact Tables.power_logOf ht a

end Sys2Proof.Machine
end

section
/-! Proofs: block memory under the commands and the host's moves (R50, R53, R57 to R59, R61, R86), and the obligations on
overlapping buffers, on the bytes a command writes, on stores and loads, and on idempotence. -/

namespace Sys2Proof.Machine

/-! ### Stores and loads of the host -/

/-- A host access inside `MEM` does what its body does (R50). -/
theorem hostAccess_of_inside {addr len : Nat} (h : insideMem addr len) (body : Result) :
    hostAccess addr len body = body := by
  rw [hostAccess, if_neg (not_not.mpr h), if_neg (not_not.mpr (rangeValid_default addr len))]

/-- A host access that reaches beyond `MEM` faults (R50, log 11). -/
theorem hostAccess_of_outside {addr len : Nat} (h : Config.memSize < addr + len) (body : Result) :
    hostAccess addr len body = .fault .outsideMem := if_pos (Nat.not_le.mpr h)

/-- The step of a pending store (R86). -/
theorem step_st {s : State} {addr : Nat} {bs : List Byte} {rest : List HostMove} (h : s.pending = .st addr bs :: rest) :
    step s = hostAccess addr bs.length (.next ((s.setPending rest).setMem (storeBytes s.mem addr bs))) :=
  step_of_pending h

/-- The step of a pending load (R86). -/
theorem step_ld {s : State} {addr len : Nat} {rest : List HostMove} (h : s.pending = .ld addr len :: rest) :
    step s = hostAccess addr len (.next ((s.setPending rest).setReply (.bytes (loadBytes s.mem addr len)))) :=
  step_of_pending h

/-- Stored bytes load back. -/
theorem loadBytes_storeBytes {m : Memory} (h : m.wf) {addr : Nat} {bs : List Byte} (hi : insideMem addr bs.length) :
    loadBytes (storeBytes m addr bs) addr bs.length = bs := by
  refine List.ext_getElem (by simp [loadBytes]) fun x _ hx => ?_
  simpa [loadBytes] using read_storeBytes h hi hx

/-- Settles O47: the two steps are a store inside `MEM` and a load of the memory it leaves; beyond `MEM` the access faults
before its body. -/
theorem storedBytesLoadBack : Obligations.StoredBytesLoadBack := by
  intro s addr rest hwf
  refine ⟨fun bs hi hp => ?_, fun bs ho hp => ?_, fun len hi hp => ?_, fun len ho hp => ?_⟩
  · refine ⟨_, _, (step_st hp).trans (hostAccess_of_inside hi _), (step_ld rfl).trans (hostAccess_of_inside hi _),
      congrArg Reply.bytes (loadBytes_storeBytes hwf hi), fun b hb => read_storeBytes_of_outside hwf hi hb⟩
  · exact (step_st hp).trans (hostAccess_of_outside ho _)
  · exact (step_ld hp).trans (hostAccess_of_inside hi _)
  · exact (step_ld hp).trans (hostAccess_of_outside ho _)

/-! ### Overlapping buffers -/

/-- An ENCODE whose checks pass refuses buffers that are not disjoint (R59). -/
theorem execEncode_of_overlap {s : State} {k m : Nat} (htv : s.tv = true) (hmv : s.mv = true) (hk : k = s.dimK.toNat)
    (hm : m + s.dimK.toNat = s.dimN.toNat) (hD : buffersInside s.blockSize (dataPtrs s k))
    (hF : buffersInside s.blockSize (parityPtrs s m))
    (hb : ¬ buffersDisjoint s.blockSize (parityPtrs s m) (encodeReads s k m)) :
    execEncode k m s = .refused .overlappingBuffers := by
  rw [execEncode, guarded_of_none, if_neg (not_not.mpr (buffersValid_default _ _)), if_pos hb]
  rw [firstError_eq_none_iff]
  simp only [List.mem_cons, List.not_mem_nil, or_false, forall_eq_or_imp, forall_eq, decide_eq_false_iff_not, not_not]
  exact ⟨by simp [needsTables, htv], by simp [needsMatrixKM, hmv, hk, hm], hD, hF⟩

/-- Settles O23: a shared byte makes the buffers not disjoint, and every check before the refusal passes. -/
theorem encodeRefusesOverlap : Obligations.EncodeRefusesOverlap := by
  rintro k m s htv hmv hk hm hD hF ⟨i, hi, b, hib, hshared⟩
  refine execEncode_of_overlap htv hmv hk hm (buffersInside_entries.mpr hD) (buffersInside_entries.mpr hF) fun hdisj => ?_
  obtain ⟨hparity, hdata⟩ := (encodeDisjoint_iff s k m).mp hdisj
  rcases hshared with ⟨j, hj, hjb⟩ | ⟨c, hc, hcb⟩
  · exact not_rangesApart_of_inBoth hjb hib (hparity i hi j hj)
  · exact not_rangesApart_of_inBoth hib hcb (hdata i hi c hc)

/-- A DECODE with an erasure whose checks pass and whose elimination gives an inverse goes on to the reconstruction
(R170, R171). -/
theorem execDecode_eq_reconstruct {s : State} {k e a : Nat} {v : ByteMatrix} (he : 1 ≤ e)
    (hi : decodeIndicesLegal s k e a) (hD : buffersInside s.blockSize (dataPtrs s k))
    (hF : buffersInside s.blockSize (parityPtrs s e)) (hv : invert s.tables k (decodeMatrix s k e) = some v) :
    execDecode k e a s = reconstruct s v k e := by
  have ⟨_, _, hk, _⟩ := hi
  have hn : firstError (decodeBufferChecks s e) = none := by
    rw [firstError_eq_none_iff]
    simp only [decodeBufferChecks, List.mem_cons, List.not_mem_nil, or_false, forall_eq_or_imp, forall_eq,
      decide_eq_false_iff_not, not_not]
    exact ⟨hk ▸ hD, hF⟩
  rw [execDecode, guarded_of_none ((decodeChecks_none_iff s k e a).mpr hi), if_neg (by omega), guarded_of_none hn, hv]

/-- The reconstruction refuses buffers that are not disjoint (R59). -/
theorem reconstruct_of_overlap {s : State} {v : ByteMatrix} {k e : Nat}
    (hb : ¬ buffersDisjoint s.blockSize (decodeWrites s e) (decodeReads s k e)) :
    reconstruct s v k e = .refused .overlappingBuffers := by
  rw [reconstruct, if_neg (not_not.mpr (buffersValid_default _ _)), if_pos hb]

/-- Settles O53: a shared byte makes the buffers not disjoint, and everything before the refusal passes. -/
theorem decodeRefusesOverlap : Obligations.DecodeRefusesOverlap := by
  rintro k e a s v he hi hD hF hv ⟨t, ht, b, htb, hshared⟩
  refine (execDecode_eq_reconstruct he hi (buffersInside_entries.mpr hD) (buffersInside_entries.mpr hF) hv).trans
    (reconstruct_of_overlap fun hdisj => ?_)
  obtain ⟨-, -, -, -, -, -, hrange, hdistinct, -⟩ := hi
  obtain ⟨hdata, hparity⟩ := (decodeDisjoint_iff hrange hdistinct).mp hdisj
  rcases hshared with ⟨p, hp, hne, hpb⟩ | ⟨u, hu, hub⟩
  · exact not_rangesApart_of_inBoth htb hpb (hdata t ht p hp hne)
  · exact not_rangesApart_of_inBoth htb hub (hparity t ht u hu)

/-! ### The bytes a command writes -/

/-- A parity block goes to a parity buffer and fills it (R58, R152). -/
theorem exists_of_mem_parityBlocks {s : State} {k m : Nat} {b : Nat × List Byte} (h : b ∈ parityBlocks s k m) :
    ∃ i < m, b.1 = s.entry .fptr i ∧ b.2.length = s.blockSize := by
  simp only [parityBlocks, List.mem_map, List.mem_range] at h
  obtain ⟨i, hi, rfl⟩ := h
  exact ⟨i, hi, rfl, by simp [parityBlock]⟩

/-- A recovered block goes to a placeholder and fills it (R58, R175). -/
theorem exists_of_mem_recoveredBlocks {s : State} {v : ByteMatrix} {k e : Nat} {b : Nat × List Byte}
    (h : b ∈ recoveredBlocks s v k e) :
    ∃ t < e, b.1 = s.entry .dptr (s.entry .eras t) ∧ b.2.length = s.blockSize := by
  simp only [recoveredBlocks, erasedPositions, List.mem_map, mem_entries] at h
  obtain ⟨_, ⟨t, ht, rfl⟩, rfl⟩ := h
  exact ⟨t, ht, rfl, by simp [recoveredBlock]⟩

/-- A ready ENCODE stores nothing outside its parity buffers (R58). -/
theorem read_storeParity_of_outside {s : State} {k m b : Nat} (hwf : s.mem.wf) (h : encodeReady s k m)
    (hb : ∀ i < m, ¬ inBuffer s.blockSize (s.entry .fptr i) b) :
    (storeBlocks s.mem (parityBlocks s k m)).read b = s.mem.read b := by
  refine read_storeBlocks_of_outside hwf (parityBlocks_inside h) fun c hc => ?_
  obtain ⟨i, hi, hbase, hlen⟩ := exists_of_mem_parityBlocks hc
  have hout := hb i hi
  simp only [inBuffer] at hout
  omega

/-- A ready DECODE stores nothing outside its placeholders (R58). -/
theorem read_storeRecovered_of_outside {s : State} {v : ByteMatrix} {k e a b : Nat} (hwf : s.mem.wf)
    (h : decodeReady s k e a) (hb : ∀ t < e, ¬ inBuffer s.blockSize (s.entry .dptr (s.entry .eras t)) b) :
    (storeBlocks s.mem (recoveredBlocks s v k e)).read b = s.mem.read b := by
  refine read_storeBlocks_of_outside hwf (recoveredBlocks_inside h) fun c hc => ?_
  obtain ⟨t, ht, hbase, hlen⟩ := exists_of_mem_recoveredBlocks hc
  have hout := hb t ht
  simp only [inBuffer] at hout
  omega

/-- Settles O41: a command that answers has stored its blocks or left block memory alone. -/
theorem bytesOutsideTheWrittenBuffers : Obligations.BytesOutsideTheWrittenBuffers := by
  intro s t b hwf
  refine ⟨fun k m h hb => ?_, fun k e a h hb => ?_⟩
  · rcases execEncode_cases k m s with ⟨err, -, hs⟩ | hs | ⟨hr, hs⟩ <;> cases hs.symm.trans h
    · rfl
    · exact read_storeParity_of_outside hwf hr hb
  · rcases execDecode_cases k e a s with ⟨err, -, hs⟩ | ⟨-, -, hs⟩ | ⟨-, -, hs⟩ | hs | ⟨hr, v, -, hs⟩ <;>
      cases hs.symm.trans h
    · rfl
    · rfl
    · rfl
    · exact read_storeRecovered_of_outside hwf hr hb

/-! ### Storing the same blocks again -/

/-- Blocks inside `MEM` that share no byte may be stored again: the memory stays as it is. -/
theorem storeBlocks_storeBlocks {m : Memory} (h : m.wf) {bs : List (Nat × List Byte)}
    (hi : ∀ b ∈ bs, insideMem b.1 b.2.length)
    (hd : bs.Pairwise fun b c => rangesApart b.1 b.2.length c.1 c.2.length) :
    storeBlocks (storeBlocks m bs) bs = storeBlocks m bs := by
  have hw := wf_storeBlocks h hi
  refine Memory.ext_of_wf (wf_storeBlocks hw hi) hw fun a => ?_
  by_cases ha : ∃ b ∈ bs, b.1 ≤ a ∧ a < b.1 + b.2.length
  · obtain ⟨b, hb, hlo, hhi⟩ := ha
    obtain ⟨x, rfl⟩ := Nat.exists_eq_add_of_le hlo
    have hx : x < b.2.length := by omega
    rw [read_storeBlocks hw hi hd hb hx, read_storeBlocks h hi hd hb hx]
  · refine read_storeBlocks_of_outside hw hi fun b hb => ?_
    by_contra hc
    exact ha ⟨b, hb, by omega, by omega⟩

/-- A byte of a buffer is no byte of a buffer apart from it. -/
theorem not_inBuffer_of_rangesApart {size p q x : Nat} (h : rangesApart p size q size) (hx : x < size) :
    ¬ inBuffer size p (q + x) := fun hp => not_rangesApart_of_inBoth hp ⟨by omega, by omega⟩ h

/-- A repeated sum depends on its terms only. -/
theorem xorSum_congr {f g : Nat → Byte} {n : Nat} (h : ∀ c < n, f c = g c) : xorSum f n = xorSum g n := by
  induction n with
  | zero => rfl
  | succ n ih => rw [xorSum, xorSum, ih fun c hc => h c (by omega), h n (by omega)]

/-- The parity blocks depend on block memory at the data buffers only (R152). -/
theorem parityBlocks_setMem {s : State} {k m : Nat} {mem : Memory}
    (h : ∀ c < k, ∀ x < s.blockSize, mem.read (s.entry .dptr c + x) = s.mem.read (s.entry .dptr c + x)) :
    parityBlocks (s.setMem mem) k m = parityBlocks s k m := by
  refine List.map_congr_left fun i _ => congrArg (Prod.mk _) (List.map_congr_left fun x hx => xorSum_congr fun c hc => ?_)
  exact congrArg (s.tables.mul _) (h c hc x (List.mem_range.mp hx))

/-- The recovered blocks depend on block memory at the buffers the positions are read from only (R175). -/
theorem recoveredBlocks_setMem {s : State} {v : ByteMatrix} {k e : Nat} {mem : Memory}
    (h : ∀ c < k, ∀ x < s.blockSize, mem.read (sourcePtr s e c + x) = s.mem.read (sourcePtr s e c + x)) :
    recoveredBlocks (s.setMem mem) v k e = recoveredBlocks s v k e := by
  refine List.map_congr_left fun p _ => congrArg (Prod.mk _) (List.map_congr_left fun x hx => xorSum_congr fun c hc => ?_)
  exact congrArg (s.tables.mul _) (h c hc x (List.mem_range.mp hx))

/-- A ready DECODE reads no byte of a placeholder (R58, R59). -/
theorem sourcePtr_apart {s : State} {k e a t c : Nat} (h : decodeReady s k e a) (ht : t < e) (hc : c < k) :
    rangesApart (s.entry .dptr (s.entry .eras t)) s.blockSize (sourcePtr s e c) s.blockSize := by
  obtain ⟨-, ⟨-, -, -, -, -, -, -, hdistinct, -⟩, -, -, hdata, hparity⟩ := h
  by_cases her : isErased s e c
  · obtain ⟨u, hu, hcu⟩ := her
    rw [sourcePtr, erasedSlot_of_erased hdistinct hu hcu]
    exact hparity t ht u hu
  · rw [sourcePtr, erasedSlot_of_surviving her]
    exact hdata t ht c hc fun hct => her ⟨t, ht, hct.symm⟩

/-- A ready ENCODE leaves the blocks it would store again as they were (R59, R152). -/
theorem parityBlocks_storeParity {s : State} {k m : Nat} (hwf : s.mem.wf) (h : encodeReady s k m) :
    parityBlocks (s.setMem (storeBlocks s.mem (parityBlocks s k m))) k m = parityBlocks s k m := by
  have ⟨_, _, _, _, _, _, _, hdata⟩ := h
  exact parityBlocks_setMem fun c hc x hx => read_storeParity_of_outside hwf h fun i hi =>
    not_inBuffer_of_rangesApart (hdata i hi c hc) hx

/-- A ready DECODE leaves the blocks it would store again as they were (R59, R175). -/
theorem recoveredBlocks_storeRecovered {s : State} {v : ByteMatrix} {k e a : Nat} (hwf : s.mem.wf)
    (h : decodeReady s k e a) :
    recoveredBlocks (s.setMem (storeBlocks s.mem (recoveredBlocks s v k e))) v k e = recoveredBlocks s v k e :=
  recoveredBlocks_setMem fun _ hc _ hx => read_storeRecovered_of_outside hwf h fun _ ht =>
    not_inBuffer_of_rangesApart (sourcePtr_apart h ht hc) hx

/-- The conditions of ENCODE do not speak of the contents of block memory. -/
theorem encodeReady_setMem {s : State} {k m : Nat} (mem : Memory) :
    encodeReady (s.setMem mem) k m ↔ encodeReady s k m := Iff.rfl

/-- The conditions of DECODE do not speak of the contents of block memory. -/
theorem decodeReady_setMem {s : State} {k e a : Nat} (mem : Memory) :
    decodeReady (s.setMem mem) k e a ↔ decodeReady s k e a := Iff.rfl

/-- The decode matrix does not depend on block memory (R173). -/
@[simp] theorem decodeMatrix_setMem (s : State) (k e : Nat) (mem : Memory) :
    decodeMatrix (s.setMem mem) k e = decodeMatrix s k e := rfl

/-! ### Idempotence -/

/-- No command reads `ERR` (R61). -/
theorem exec_setErr (i : Instr) (s : State) (e : Err) : exec i (s.setErr e) = exec i s := by
  cases i <;> rfl

@[simp] theorem setResult_setResult (s : State) (v w : Byte) : (s.setResult v).setResult w = s.setResult w := rfl

@[simp] theorem setMatrix_setMatrix (s : State) (g g' : ByteMatrix) (n k n' k' : Nat) :
    (s.setMatrix g n k).setMatrix g' n' k' = s.setMatrix g' n' k' := rfl

/-- A successful answer with a byte in `RESULT` tells the byte. -/
theorem result_of_answer {r : Result} {s : State} {v w : Byte} (hw : r = .next ((s.setResult w).setErr .ok))
    (hv : r = .next ((s.setResult v).setErr .ok)) : v = w :=
  congrArg State.result (Host.Outcome.next.inj (hv.symm.trans hw))

/-- A command that leaves a byte in `RESULT` does not read `RESULT` (R27, R61). -/
theorem exec_setResult {i : Instr} {s : State} {v : Byte} (hi : WritesResult i)
    (h : exec i s = .next ((s.setResult v).setErr .ok)) :
    exec i (s.setResult v) = .next ((s.setResult v).setErr .ok) := by
  cases hi with
  | gfmul a b =>
    rcases execGfmul_cases a b s with ⟨-, hs⟩ | ⟨htv, hs⟩
    · cases hs.symm.trans h
    · rw [result_of_answer hs h]
      simp [exec, execGfmul, guarded_cons, needsTables, htv]
  | gfdiv a b =>
    rcases execGfdiv_cases a b s with ⟨-, hs⟩ | ⟨-, -, hs⟩ | ⟨htv, hb, hs⟩
    · cases hs.symm.trans h
    · cases hs.symm.trans h
    · rw [result_of_answer hs h]
      simp [exec, execGfdiv, guarded_cons, needsTables, htv, hb]
  | gfinv a =>
    rcases execGfinv_cases a s with ⟨-, hs⟩ | ⟨-, -, hs⟩ | ⟨htv, ha, hs⟩
    · cases hs.symm.trans h
    · cases hs.symm.trans h
    · rw [result_of_answer hs h]
      simp [exec, execGfinv, guarded_cons, needsTables, htv, ha]
  | matrd row col =>
    rcases execMatrd_cases row col s with ⟨e, he, hs⟩ | ⟨htv, hmv, hr, hc, hs⟩
    · cases hs.symm.trans h
      simp at he
    · rw [result_of_answer hs h]
      simp [exec, execMatrd, guarded_cons, needsTables, needsMatrix, htv, hmv, hr.not_ge, hc.not_ge]

/-- BUILD reads neither the matrix nor its dimensions (R61, R130). -/
theorem execBuild_setMatrix {s : State} {n k : Nat} (htv : s.tv = true) (h : legalDims n k) :
    execBuild n k (s.setMatrix (generatorMatrix s.tables n k h.2.2) n k) =
      .next ((s.setMatrix (generatorMatrix s.tables n k h.2.2) n k).setErr .ok) := by
  simp [execBuild, guarded_cons, needsTables, htv, dif_pos h]

/-- An ENCODE stores nothing where it reads, so that a second one stores the same bytes again (R61). -/
theorem execEncode_again {s t : State} {k m : Nat} (hwf : s.mem.wf) (h : exec (.encode k m) s = .next t) :
    exec (.encode k m) t = .next t := by
  rcases execEncode_cases k m s with ⟨e, -, hs⟩ | hs | ⟨hr, hs⟩ <;> cases hs.symm.trans h
  · exact (exec_setErr _ s e).trans h
  · rw [exec_setErr]
    refine (execEncode_of_ready ((encodeReady_setMem _).mpr hr)).trans ?_
    rw [parityBlocks_storeParity hwf hr, setMem_mem, setMem_setMem,
      storeBlocks_storeBlocks hwf (parityBlocks_inside hr) (parityBlocks_apart hr)]

/-- A DECODE stores nothing where it reads, so that a second one stores the same bytes again (R61). -/
theorem execDecode_again {s t : State} {k e a : Nat} (hwf : s.mem.wf) (h : exec (.decode k e a) s = .next t) :
    exec (.decode k e a) t = .next t := by
  rcases execDecode_cases k e a s with ⟨err, -, hs⟩ | ⟨-, -, hs⟩ | ⟨-, -, hs⟩ | hs | ⟨hr, v, hv, hs⟩ <;>
    cases hs.symm.trans h
  · exact (exec_setErr _ s err).trans h
  · exact (exec_setErr _ s .ok).trans h
  · exact (exec_setErr _ s .singular).trans h
  · rw [decodedState, exec_setErr]
    refine (execDecode_of_ready ((decodeReady_setMem _).mpr hr)).trans ?_
    simp only [setMem_tables, decodeMatrix_setMem, hv, decodedState]
    rw [recoveredBlocks_storeRecovered hwf hr, setMem_mem, setMem_setMem,
      storeBlocks_storeBlocks hwf (recoveredBlocks_inside hr) (recoveredBlocks_apart hr)]

/-- Settles O39: no command reads what it has changed, but for `TV`, which makes a second INIT leave the tables alone, and
block memory, where a command stores nothing it reads. -/
theorem everyCommandIsIdempotent : Obligations.EveryCommandIsIdempotent := by
  intro i s t hwf h
  cases exec_effect h with
  | onlyErr => exact (exec_setErr i s _).trans h
  | tables => rfl
  | result _ hi => exact (exec_setErr i _ _).trans (exec_setResult hi h)
  | matrix htv hl => exact (exec_setErr _ _ _).trans (execBuild_setMatrix htv hl)
  | store hi =>
    cases hi with
    | encode k m => exact execEncode_again hwf h
    | decode k e a => exact execDecode_again hwf h

end Sys2Proof.Machine
end

section
/-! Proofs: the decoder and the encoder (R70 to R77). A word decodes to a command exactly when it carries the command's
opcode, operands and zero fields, which is when its value is the one the encoder gives the command. -/

namespace Sys2Proof

/-! ### What decodes -/

/-- The word carries the opcode, the operands and the zero fields of the command's format (R71, R72). -/
def Carries (w : Word) : Instr → Prop
  | .init => slice w 31 28 = 1 ∧ slice w 27 0 = 0
  | .gfmul a b => slice w 31 28 = 2 ∧ slice w 27 16 = 0 ∧ slice w 15 8 = a.toNat ∧ slice w 7 0 = b.toNat
  | .gfdiv a b => slice w 31 28 = 3 ∧ slice w 27 16 = 0 ∧ slice w 15 8 = a.toNat ∧ slice w 7 0 = b.toNat
  | .gfinv a => slice w 31 28 = 4 ∧ slice w 7 0 = 0 ∧ slice w 27 16 = 0 ∧ slice w 15 8 = a.toNat
  | .build n k => slice w 31 28 = 5 ∧ slice w 27 18 = 0 ∧ slice w 17 9 = n ∧ slice w 8 0 = k
  | .matrd row col => slice w 31 28 = 6 ∧ slice w 27 16 = 0 ∧ slice w 15 8 = row ∧ slice w 7 0 = col
  | .encode k m => slice w 31 28 = 7 ∧ slice w 27 18 = 0 ∧ slice w 8 0 = k ∧ slice w 17 9 = m
  | .decode k e a =>
    slice w 31 28 = 8 ∧ slice w 27 27 = 0 ∧ slice w 8 0 = k ∧ slice w 17 9 = e ∧ slice w 26 18 = a

/-- A byte field holds the value of its slice. -/
theorem toNat_byteField (w : Word) (lo : Nat) : (byteField w lo).toNat = slice w (lo + 7) lo := by
  have hlt := slice_lt w (lo + 7) lo
  rw [show lo + 7 + 1 - lo = 8 by omega] at hlt
  rw [byteField, BitVec.toNat_ofNat, Nat.mod_eq_of_lt hlt]

theorem byteField_eq_iff {w : Word} {lo : Nat} {a : Byte} : byteField w lo = a ↔ slice w (lo + 7) lo = a.toNat := by
  rw [← BitVec.toNat_inj, toNat_byteField]

theorem whenZero_eq_ok_iff {w : Word} {hi lo : Nat} {i j : Instr} :
    whenZero w hi lo i = .ok j ↔ slice w hi lo = 0 ∧ i = j := by
  by_cases h : slice w hi lo = 0 <;> simp [whenZero, h]

theorem decodeGfinv_eq_ok_iff {w : Word} {j : Instr} :
    decodeGfinv w = .ok j ↔ slice w 7 0 = 0 ∧ slice w 27 16 = 0 ∧ .gfinv (byteField w 8) = j := by
  by_cases h : slice w 7 0 = 0 <;> simp [decodeGfinv, whenZero_eq_ok_iff, h]

/-- The decoder gives a command exactly when the word carries it (R71, R72, R77). -/
theorem decode_eq_ok_iff_carries {w : Word} {i : Instr} : decode w = .ok i ↔ Carries w i := by
  constructor
  · intro h
    unfold decode at h
    split at h
    case h_4 hop =>
      obtain ⟨hlow, hz, rfl⟩ := decodeGfinv_eq_ok_iff.mp h
      exact ⟨hop, hlow, hz, byteField_eq_iff.mp rfl⟩
    case h_9 => cases h
    all_goals
      obtain ⟨hz, rfl⟩ := whenZero_eq_ok_iff.mp h
      simp [Carries, toNat_byteField, *]
  · intro h
    cases i
    all_goals
      simp only [Carries] at h
      simp [decode, decodeGfinv_eq_ok_iff, whenZero_eq_ok_iff, byteField_eq_iff, h]

/-- The bits of a word up to `hi` are those below `lo` and the field from `lo` to `hi`, in its range (R10). -/
theorem toNat_mod_eq_add_slice (w : Word) (hi lo : Nat) (h : lo ≤ hi + 1) :
    w.toNat % 2 ^ (hi + 1) = w.toNat % 2 ^ lo + 2 ^ lo * slice w hi lo ∧ slice w hi lo < 2 ^ (hi + 1 - lo) := by
  refine ⟨?_, slice_lt w hi lo⟩
  rw [slice, ← Nat.mod_mul, ← Nat.pow_add, Nat.add_sub_cancel' h]

/-- A word carries a command exactly when its value is the sum of the fields in their places, each in its range: cut at
the format's fields, a word has one such sum (R71, R73). -/
theorem carries_iff_toNat {w : Word} {i : Instr} : Carries w i ↔ wellFormed i = true ∧ w.toNat = encodedValue i := by
  have hw : w.toNat % 2 ^ 32 = w.toNat := Nat.mod_eq_of_lt w.isLt
  have cut := toNat_mod_eq_add_slice w
  have hop := cut 31 28 (by decide)
  have hbyte (b : Byte) : b.toNat < 2 ^ 8 := b.isLt
  cases i with
  | init =>
    have hz := cut 27 0 (by decide)
    simp only [Carries, wellFormed, encodedValue, true_and]
    constructor <;> omega
  | gfmul a b | gfdiv a b =>
    have hz := cut 27 16 (by decide)
    have ha := cut 15 8 (by decide)
    have hb := cut 7 0 (by decide)
    have := hbyte a
    have := hbyte b
    simp only [Carries, wellFormed, encodedValue, true_and]
    constructor <;> omega
  | gfinv a =>
    have hz := cut 27 16 (by decide)
    have ha := cut 15 8 (by decide)
    have hlow := cut 7 0 (by decide)
    have := hbyte a
    simp only [Carries, wellFormed, encodedValue, true_and]
    constructor <;> omega
  | build n k | encode k n =>
    have hz := cut 27 18 (by decide)
    have hn := cut 17 9 (by decide)
    have hk := cut 8 0 (by decide)
    simp only [Carries, wellFormed, encodedValue, decide_eq_true_eq]
    constructor <;> omega
  | matrd row col =>
    have hz := cut 27 16 (by decide)
    have hrow := cut 15 8 (by decide)
    have hcol := cut 7 0 (by decide)
    simp only [Carries, wellFormed, encodedValue, decide_eq_true_eq]
    constructor <;> omega
  | decode k e a =>
    have hz := cut 27 27 (by decide)
    have ha := cut 26 18 (by decide)
    have he := cut 17 9 (by decide)
    have hk := cut 8 0 (by decide)
    simp only [Carries, wellFormed, encodedValue, decide_eq_true_eq]
    constructor <;> omega

/-- A word decodes to a command exactly when the command is well-formed and the word is its encoding. -/
theorem decode_eq_ok_iff_encode {w : Word} {i : Instr} : decode w = .ok i ↔ wellFormed i = true ∧ encode i = w := by
  rw [decode_eq_ok_iff_carries, carries_iff_toNat]
  refine and_congr_right fun h => ?_
  rw [← encode_toNat i h, BitVec.toNat_inj, eq_comm]

/-- Settles O1: the encoder's word carries the command. -/
theorem decodeOfEncode : Obligations.DecodeOfEncode :=
  fun _ h => decode_eq_ok_iff_encode.mpr ⟨h, rfl⟩

/-- Settles O2: the word that carries a command has the value of the command's encoding. -/
theorem encodeOfDecode : Obligations.EncodeOfDecode :=
  fun _ _ h => decode_eq_ok_iff_encode.mp h

/-- Settles O4: each word decodes to its command, and so is the command's encoding. -/
theorem workedEncodings : Obligations.WorkedEncodings := by
  intro wi hwi
  suffices hd : decode wi.1 = .ok wi.2 from ⟨hd, (encodeOfDecode _ _ hd).2⟩
  revert wi
  decide

/-! ### The rows of the match and mask table -/

/-- A word that matches a row has the row's bits wherever the mask covers them (R74). -/
theorem slice_of_matches {w mask mtch : Word} (h : w &&& mask = mtch) (hi lo : Nat) {v : Nat}
    (hrow : mask.extractLsb' lo (hi + 1 - lo) = BitVec.allOnes _ ∧ slice mtch hi lo = v) : slice w hi lo = v := by
  obtain ⟨hcover, rfl⟩ := hrow
  rw [← h, slice_eq_extract, slice_eq_extract, BitVec.extractLsb'_and, hcover, BitVec.and_allOnes]

/-- The encoding of a well-formed command matches the command's row. -/
theorem encode_matches (i : Instr) (h : wellFormed i = true) : encode i &&& rowMask i = rowMatch i := by
  cases i with
  | init => exact Laws.RowMatch.init h
  | gfmul a b => exact Laws.RowMatch.gfmul a b h
  | gfdiv a b => exact Laws.RowMatch.gfdiv a b h
  | gfinv a => exact Laws.RowMatch.gfinv a h
  | build n k => exact Laws.RowMatch.build n k h
  | matrd row col => exact Laws.RowMatch.matrd row col h
  | encode k m => exact Laws.RowMatch.encode k m h
  | decode k e a => exact Laws.RowMatch.decode k e a h

/-- The row of every command is one of the eight. -/
theorem row_mem_rows (i : Instr) : (rowMatch i, rowMask i) ∈ rows := by
  cases i <;> simp [rows, rowMatch, rowMask]

/-- A word that decodes matches the row of its command (R74). -/
theorem matches_of_decode {w : Word} {i : Instr} (h : decode w = .ok i) : w &&& rowMask i = rowMatch i := by
  obtain ⟨hwf, rfl⟩ := encodeOfDecode w i h
  exact encode_matches i hwf

/-- A word that matches the row of a command decodes to a command of that row: the row fixes the opcode and the zero
fields, and the other fields are the operands (R74, R77). -/
theorem exists_decode_of_matches {w : Word} (j : Instr) (h : w &&& rowMask j = rowMatch j) :
    ∃ i, decode w = .ok i ∧ (rowMatch i, rowMask i) = (rowMatch j, rowMask j) := by
  have bits hi lo {v} := slice_of_matches h hi lo (v := v)
  have ha := (toNat_byteField w 8).symm
  have hb := (toNat_byteField w 0).symm
  simp only [decode_eq_ok_iff_carries]
  cases j <;> dsimp only [rowMask, rowMatch] at bits
  case init => exact ⟨.init, ⟨bits 31 28 (by decide), bits 27 0 (by decide)⟩, rfl⟩
  case gfmul => exact ⟨.gfmul _ _, ⟨bits 31 28 (by decide), bits 27 16 (by decide), ha, hb⟩, rfl⟩
  case gfdiv => exact ⟨.gfdiv _ _, ⟨bits 31 28 (by decide), bits 27 16 (by decide), ha, hb⟩, rfl⟩
  case gfinv => exact ⟨.gfinv _, ⟨bits 31 28 (by decide), bits 7 0 (by decide), bits 27 16 (by decide), ha⟩, rfl⟩
  case build => exact ⟨.build _ _, ⟨bits 31 28 (by decide), bits 27 18 (by decide), rfl, rfl⟩, rfl⟩
  case matrd => exact ⟨.matrd _ _, ⟨bits 31 28 (by decide), bits 27 16 (by decide), rfl, rfl⟩, rfl⟩
  case encode => exact ⟨.encode _ _, ⟨bits 31 28 (by decide), bits 27 18 (by decide), rfl, rfl⟩, rfl⟩
  case decode => exact ⟨.decode _ _ _, ⟨bits 31 28 (by decide), bits 27 27 (by decide), rfl, rfl, rfl⟩, rfl⟩

/-- Every mask covers the opcode (R74). -/
theorem rowMask_covers_opcode (i : Instr) : (rowMask i).extractLsb' 28 4 = BitVec.allOnes 4 := by
  cases i <;> dsimp only [rowMask] <;> decide

/-- A word has the opcode of every row it matches. -/
theorem opcode_of_matches {w : Word} {r : Word × Word} (hr : r ∈ rows) (h : w &&& r.2 = r.1) :
    slice r.1 31 28 = slice w 31 28 := by
  obtain ⟨j, -, rfl⟩ := List.mem_map.mp hr
  exact (slice_of_matches h 31 28 ⟨rowMask_covers_opcode j, rfl⟩).symm

/-- The rows of R74 a word matches. -/
def matchedRows (w : Word) : List (Word × Word) := rows.filter fun r => w &&& r.2 == r.1

theorem mem_matchedRows {w : Word} {r : Word × Word} : r ∈ matchedRows w ↔ r ∈ rows ∧ w &&& r.2 = r.1 := by
  simp [matchedRows]

/-- The rows a word matches all have its opcode, and the opcodes of the eight rows differ (R74). -/
theorem length_matchedRows_le_one (w : Word) : (matchedRows w).length ≤ 1 := by
  have hops : (matchedRows w).map (fun r => slice r.1 31 28) =
      List.replicate (matchedRows w).length (slice w 31 28) := by
    refine List.eq_replicate_iff.mpr ⟨List.length_map _, fun op hop => ?_⟩
    obtain ⟨r, hr, rfl⟩ := List.mem_map.mp hop
    obtain ⟨hrow, h⟩ := mem_matchedRows.mp hr
    exact opcode_of_matches hrow h
  have hdistinct : (rows.map fun r => slice r.1 31 28).Nodup := by decide
  have hsub : (matchedRows w).Sublist rows := List.filter_sublist
  have hnodup := hdistinct.sublist (hsub.map _)
  rw [hops] at hnodup
  exact List.nodup_replicate.mp hnodup

/-- Settles O3: a word that decodes is an encoding, which lies in its row; a matched row fixes the opcode and the zero
fields; and the opcodes of the rows differ. -/
theorem legalWordsMatchOneRow : Obligations.LegalWordsMatchOneRow := by
  refine fun w => ⟨fun i h => ⟨row_mem_rows i, matches_of_decode h⟩, fun r hr h => ?_, length_matchedRows_le_one w⟩
  obtain ⟨j, -, rfl⟩ := List.mem_map.mp hr
  exact exists_decode_of_matches j h

/-- A word that matches no row is illegal (R77). -/
theorem exists_error_of_no_match {w : Word} (h : ∀ r ∈ rows, w &&& r.2 ≠ r.1) : ∃ x, decode w = .error x := by
  cases hw : decode w with
  | ok i => exact absurd (matches_of_decode hw) (h _ (row_mem_rows i))
  | error x => exact ⟨x, rfl⟩

end Sys2Proof
end

section
/-! Proofs: what the register port does with illegal words, read-only registers and reserved offsets (R81, R83, R84). -/

namespace Sys2Proof.Machine

/-- Settles O5: the move writes `CMD`, and its word does not decode. -/
theorem illegalWordRaisesIllcmd : Obligations.IllegalWordRaisesIllcmd := by
  intro s w rest h hw
  obtain ⟨x, hx⟩ := exists_error_of_no_match hw
  have hcmd : regAt 0x0000 = some .cmd := rfl
  rw [step_of_pending h, hostMove_wr hcmd]
  exact submit_of_error hx (s.setPending rest)

/-- Settles O44: the offset is that of a read-only register, which no write updates. -/
theorem writesToReadOnlyRegistersAreIgnored : Obligations.WritesToReadOnlyRegistersAreIgnored := by
  rintro s off v rest h (rfl | rfl | rfl)
  · exact (step_of_pending h).trans (hostMove_wr (r := .status) rfl v _)
  · exact (step_of_pending h).trans (hostMove_wr (r := .result) rfl v _)
  · exact (step_of_pending h).trans (hostMove_wr (r := .dims) rfl v _)

/-- The register map answers none exactly at the misaligned and the reserved offsets (R84). -/
theorem regAt_eq_none_iff (off : Nat) :
    regAt off = none ↔ off % 4 ≠ 0 ∨ (0x0014 ≤ off ∧ off < 0x0400) ∨ 0x1400 ≤ off := by
  rw [← Option.not_isSome_iff_eq_none, regAt_isSome_iff]
  omega

/-- A register write at an offset of no register is refused (R84). -/
theorem hostMove_wr_of_none {off : Nat} (h : regAt off = none) (v : Word) (s : State) :
    hostMove (.wr off v) s = .refused .undefinedPort := by simp [hostMove, h]

/-- A register read at an offset of no register is refused (R84). -/
theorem hostMove_rd_of_none {off : Nat} (h : regAt off = none) (s : State) :
    hostMove (.rd off) s = .refused .undefinedPort := by simp [hostMove, h]

/-- Settles O46: the register map answers none at the reserved offsets and a register at every other. -/
theorem reservedOffsetsAreRefused : Obligations.ReservedOffsetsAreRefused := by
  intro s off v rest
  refine ⟨fun hoff => ?_, fun h4 hoff h => ?_⟩
  · have hnone : regAt off = none := (regAt_eq_none_iff off).mpr hoff
    exact ⟨fun h => (step_of_pending h).trans (hostMove_wr_of_none hnone v _),
      fun h => (step_of_pending h).trans (hostMove_rd_of_none hnone _)⟩
  · obtain ⟨r, hr⟩ := Option.isSome_iff_exists.mp ((regAt_isSome_iff off).mpr ⟨h4, hoff⟩)
    exact ⟨_, step_rd h hr⟩

end Sys2Proof.Machine
end

section
/-! Proofs: the laws of the field under valid tables (R101 to R106, R112), and its product as polynomials (R113). -/

namespace Sys2Proof.Machine

/-! ### `xtime` is linear -/

/-- A mask under the sum of two bits is the sum of the masks under each. -/
theorem ite_xor_eq_xor_ite {w : Nat} (p q : Bool) (m : BitVec w) :
    (if p ^^ q then m else 0#w) = (if p then m else 0#w) ^^^ (if q then m else 0#w) := by
  cases p <;> cases q <;> simp

/-- `xtime` as a shift and the reduction of the bit that leaves (R101). -/
theorem xtime_eq_shift : ∀ v : Byte, xtime v = v <<< 1 ^^^ if v.msb then 0x1D#8 else 0#8 := by decide +kernel

theorem xtime_xor (a b : Byte) : xtime (a ^^^ b) = xtime a ^^^ xtime b := by
  simp only [xtime_eq_shift, BitVec.shiftLeft_xor_distrib, BitVec.msb_xor, ite_xor_eq_xor_ite]
  ac_rfl

theorem iterate_xtime_xor (n : Nat) (a b : Byte) : xtime^[n] (a ^^^ b) = xtime^[n] a ^^^ xtime^[n] b :=
  (Function.Semiconj₂.iterate (fun a b => xtime_xor a b) n).eq a b

@[simp] theorem iterate_xtime_zero (n : Nat) : xtime^[n] 0#8 = 0#8 := Function.iterate_fixed (by decide) n

/-- Every byte is zero or a power of `g` (R21). -/
theorem eq_zero_or_power (a : Byte) : a = 0#8 ∨ ∃ i, xtime^[i] 1 = a := by
  by_cases ha : a = 0#8
  · exact .inl ha
  · obtain ⟨i, -, hi⟩ := exists_power a ha
    exact .inr ⟨i, hi⟩

/-! ### `mul` -/

@[simp] theorem Tables.zero_mul (t : Tables) (a : Byte) : t.mul 0#8 a = 0#8 := by simp [Tables.mul]

@[simp] theorem Tables.mul_zero (t : Tables) (a : Byte) : t.mul a 0#8 = 0#8 := by simp [Tables.mul]

section Built
variable {t : Tables} (ht : tablesBuilt t)
include ht

/-- Exponents add (R104). -/
theorem Tables.power_mul_power (i j : Nat) : t.mul (xtime^[i] 1) (xtime^[j] 1) = xtime^[i + j] 1 := by
  have hi := power_ne_zero i
  have hj := power_ne_zero j
  calc t.mul (xtime^[i] 1) (xtime^[j] 1)
      = t.power (t.logOf ⟨_, hi⟩ + t.logOf ⟨_, hj⟩) := by rw [Tables.mul, dif_neg hi, dif_neg hj]
    _ = xtime^[t.logOf ⟨_, hi⟩ + j] 1 := by
      rw [power_of_built ht, Function.iterate_add_apply, power_logOf ht, ← Function.iterate_add_apply]
    _ = xtime^[i + j] 1 := by
      rw [Nat.add_comm, Function.iterate_add_apply, power_logOf ht, ← Function.iterate_add_apply, Nat.add_comm]

/-- Multiplication by `g^i` is `xtime`, `i` times (R101, R104). -/
theorem Tables.power_mul (i : Nat) (b : Byte) : t.mul (xtime^[i] 1) b = xtime^[i] b := by
  obtain rfl | ⟨j, rfl⟩ := eq_zero_or_power b
  · simp
  · rw [power_mul_power ht, Function.iterate_add_apply]

theorem Tables.mul_comm (a b : Byte) : t.mul a b = t.mul b a := by
  obtain rfl | ⟨i, rfl⟩ := eq_zero_or_power a
  · simp
  · obtain rfl | ⟨j, rfl⟩ := eq_zero_or_power b
    · simp
    · rw [power_mul_power ht, power_mul_power ht, Nat.add_comm]

theorem Tables.mul_assoc (a b c : Byte) : t.mul (t.mul a b) c = t.mul a (t.mul b c) := by
  obtain rfl | ⟨i, rfl⟩ := eq_zero_or_power a
  · simp
  · obtain rfl | ⟨j, rfl⟩ := eq_zero_or_power b
    · simp
    · simp only [power_mul_power ht, power_mul ht, Function.iterate_add_apply xtime i j c]

theorem Tables.mul_xor (a b c : Byte) : t.mul a (b ^^^ c) = t.mul a b ^^^ t.mul a c := by
  obtain rfl | ⟨i, rfl⟩ := eq_zero_or_power a
  · simp
  · simp only [power_mul ht, iterate_xtime_xor]

theorem Tables.mul_xorSum (a : Byte) (f : Nat → Byte) (n : Nat) :
    t.mul a (xorSum f n) = xorSum (fun i => t.mul a (f i)) n := by
  induction n with
  | zero => exact t.mul_zero a
  | succ n ih => rw [xorSum, mul_xor ht, ih, xorSum]

theorem Tables.one_mul (a : Byte) : t.mul 1 a = a := power_mul ht 0 a

theorem Tables.mul_one (a : Byte) : t.mul a 1 = a := (mul_comm ht a 1).trans (one_mul ht a)

/-- There are no zero divisors (R112). -/
theorem Tables.eq_zero_of_mul_eq_zero {a b : Byte} (h : t.mul a b = 0#8) : a = 0#8 ∨ b = 0#8 := by
  obtain ha | ⟨i, rfl⟩ := eq_zero_or_power a
  · exact .inl ha
  · obtain hb | ⟨j, rfl⟩ := eq_zero_or_power b
    · exact .inr hb
    · rw [power_mul_power ht] at h
      exact absurd h (power_ne_zero _)

/-! ### `inv` and `div` -/

/-- `inv(b)` is a power (R106). -/
theorem Tables.inv_eq_power (b : NonzeroByte) : t.inv b = xtime^[255 - t.logOf b] 1 := power_of_built ht _

theorem Tables.inv_ne_zero (b : NonzeroByte) : t.inv b ≠ 0#8 := by
  rw [inv_eq_power ht]
  exact power_ne_zero _

/-- The exponents of `b` and `inv(b)` add up to 255, where the powers come back to `0x01` (R103, R106). -/
theorem Tables.mul_inv (b : NonzeroByte) : t.mul b.val (t.inv b) = 1 := by
  have hlog := logOf_lt ht b
  calc t.mul b.val (t.inv b)
      = t.mul (xtime^[t.logOf b] 1) (xtime^[255 - t.logOf b] 1) := by rw [power_logOf ht, inv_eq_power ht]
    _ = xtime^[255] 1 := by rw [power_mul_power ht, Nat.add_sub_cancel' hlog.le]
    _ = 1 := power_cycle

theorem Tables.inv_mul (b : NonzeroByte) : t.mul (t.inv b) b.val = 1 := (mul_comm ht _ _).trans (mul_inv ht b)

/-- `inv(b)` is the only byte with `mul(b, inv(b)) = 0x01` (R106). -/
theorem Tables.eq_inv_of_mul_eq_one {a : Byte} {b : NonzeroByte} (h : t.mul a b.val = 1) : a = t.inv b :=
  calc a = t.mul a (t.mul b.val (t.inv b)) := by rw [mul_inv ht, mul_one ht]
    _ = t.inv b := by rw [← mul_assoc ht, h, one_mul ht]

theorem Tables.inv_inv (b : NonzeroByte) : t.inv ⟨t.inv b, inv_ne_zero ht b⟩ = b.val :=
  (eq_inv_of_mul_eq_one ht (mul_inv ht b)).symm

/-- Dividing is multiplying by the inverse (R105, R106). -/
theorem Tables.div_eq_mul_inv (a : Byte) (b : NonzeroByte) : t.div a b = t.mul a (t.inv b) := by
  by_cases ha : a = 0#8
  · simp [Tables.div, ha]
  · have hlog := logOf_lt ht b
    calc t.div a b
        = xtime^[t.logOf ⟨a, ha⟩ + (255 - t.logOf b)] 1 := by
          rw [Tables.div, dif_neg ha, power_of_built ht, Config.order, Nat.add_sub_assoc hlog.le]
      _ = t.mul a (t.inv b) := by rw [← power_mul_power ht, power_logOf ht, inv_eq_power ht]

theorem Tables.div_mul_cancel (a : Byte) (b : NonzeroByte) : t.mul (t.div a b) b.val = a := by
  rw [div_eq_mul_inv ht, mul_assoc ht, inv_mul ht, mul_one ht]

theorem Tables.mul_div_cancel (a : Byte) (b : NonzeroByte) : t.div (t.mul a b.val) b = a := by
  rw [div_eq_mul_inv ht, mul_assoc ht, mul_inv ht, mul_one ht]

theorem Tables.div_self (b : NonzeroByte) : t.div b.val b = 1 := (div_eq_mul_inv ht _ b).trans (mul_inv ht b)

end Built

/-- Settles O9: every nonzero byte is a power of `g`, exponents add, and `xtime` is linear. -/
theorem fieldLaws : Obligations.FieldLaws := by
  intro t ht
  refine ⟨fun a b c => ?_, fun a b => ?_⟩
  · exact ⟨Tables.mul_comm ht a b, Tables.mul_assoc ht a b c, Tables.mul_xor ht a b c, Tables.mul_one ht a, t.mul_zero a,
      Tables.eq_zero_of_mul_eq_zero ht⟩
  · exact ⟨Tables.div_mul_cancel ht a b, Tables.mul_div_cancel ht a b, Tables.div_eq_mul_inv ht a b, Tables.mul_inv ht b,
      ⟨Tables.inv_ne_zero ht b, Tables.inv_inv ht b⟩, Tables.div_self ht b⟩

/-! ### The polynomial product -/

/-- One round of the reduction adds `POLY << i` under the bit it removes (R113). -/
theorem reducePoly_succ (r : BitVec 15) (i : Nat) : reducePoly r (i + 1) =
    reducePoly (r ^^^ if r.getLsbD (8 + i) then Config.poly.setWidth 15 <<< i else 0#15) i := by
  rw [reducePoly]
  cases r.getLsbD (8 + i) <;> simp

@[simp] theorem reducePoly_zero (n : Nat) : reducePoly 0#15 n = 0#15 := by
  induction n with
  | zero => rfl
  | succ n ih => simpa [reducePoly_succ] using ih

/-- The reduction is linear (R113). -/
theorem reducePoly_xor (r q : BitVec 15) (n : Nat) :
    reducePoly (r ^^^ q) n = reducePoly r n ^^^ reducePoly q n := by
  induction n generalizing r q with
  | zero => rfl
  | succ n ih =>
    simp only [reducePoly_succ, ← ih, BitVec.getLsbD_xor, ite_xor_eq_xor_ite]
    congr 1
    ac_rfl

/-- `xtime` is one round of the reduction (R101, R113). -/
theorem xtime_eq_reduce : ∀ a : Byte,
    (xtime a).setWidth 15 =
      a.setWidth 15 <<< 1 ^^^ if a.getLsbD 7 then Config.poly.setWidth 15 else 0 := by decide +kernel

/-- The round that removes bit `8 + i` of `a << (i + 1)` leaves `xtime(a) << i`. -/
theorem reducePoly_shift_succ (a : Byte) {i : Nat} (hi : i < 7) :
    reducePoly (a.setWidth 15 <<< (i + 1)) (i + 1) = reducePoly ((xtime a).setWidth 15 <<< i) i := by
  have hbit : (a.setWidth 15 <<< (i + 1)).getLsbD (8 + i) = a.getLsbD 7 := by
    have h15 : 8 + i < 15 := by omega
    have h7 : 8 + i - (i + 1) = 7 := by omega
    simp [h15, h7, show ¬ 8 + i < i + 1 by omega]
  rw [reducePoly_succ, hbit, xtime_eq_reduce, BitVec.shiftLeft_xor_distrib, Nat.add_comm i 1, BitVec.shiftLeft_add]
  cases a.getLsbD 7 <;> simp

/-- The rounds of bits `8 .. 8 + i - 1` take `a << i` to `xtime`, `i` times (R101, R113). -/
theorem reducePoly_shift (a : Byte) {i : Nat} (hi : i ≤ 7) :
    reducePoly (a.setWidth 15 <<< i) i = (xtime^[i] a).setWidth 15 := by
  induction i generalizing a with
  | zero => simp [reducePoly]
  | succ i ih => rw [reducePoly_shift_succ a hi, ih _ (by omega), Function.iterate_succ_apply]

/-- The rounds above the top bit change nothing. -/
theorem reducePoly_of_lt {r : BitVec 15} {i n : Nat} (hin : i ≤ n) (hr : r.toNat < 2 ^ (8 + i)) :
    reducePoly r n = reducePoly r i := by
  induction n, hin using Nat.le_induction with
  | base => rfl
  | succ n hin ih =>
    have hbit : r.getLsbD (8 + n) = false :=
      Nat.testBit_lt_two_pow (hr.trans_le (Nat.pow_le_pow_right (by decide) (by omega)))
    rw [reducePoly, hbit, if_neg Bool.false_ne_true, ih]

/-- `a << i` reduces to `a` multiplied by `g`, `i` times (R101, R113). -/
theorem reducePoly_seven_shift (a : Byte) {i : Nat} (hi : i < 8) :
    reducePoly (a.setWidth 15 <<< i) 7 = (xtime^[i] a).setWidth 15 := by
  have hlt : (a.setWidth 15 <<< i).toNat < 2 ^ (8 + i) := by
    rw [BitVec.toNat_shiftLeft, BitVec.toNat_setWidth, Nat.shiftLeft_eq, Nat.pow_add]
    refine (Nat.mod_le _ _).trans_lt (Nat.mul_lt_mul_of_pos_right ?_ (Nat.two_pow_pos i))
    exact (Nat.mod_le _ _).trans_lt a.isLt
  rw [reducePoly_of_lt (Nat.le_of_lt_succ hi) hlt, reducePoly_shift a (Nat.le_of_lt_succ hi)]

/-- The summand of bit `i` of `b` in the product of `a` and `b`: `a · g^i` or zero. -/
def bitSummand (a b : Byte) (i : Nat) : Byte := if b.getLsbD i then xtime^[i] a else 0#8

/-- The carry-less product of the low `n` bits of `b` reduces to the sum of their summands (R113). -/
theorem reducePoly_carrylessProduct (a b : Byte) {n : Nat} (hn : n ≤ 8) :
    (reducePoly (carrylessProduct a b n) 7).setWidth 8 = xorSum (bitSummand a b) n := by
  induction n with
  | zero => simp [carrylessProduct, xorSum]
  | succ n ih =>
    rw [carrylessProduct, reducePoly_xor, BitVec.setWidth_xor, ih (by omega), xorSum, bitSummand]
    cases b.getLsbD n
    · simp
    · simp [reducePoly_seven_shift a hn]

/-- `pmul(a, b)` sums `a · g^i` over the set bits `i` of `b` (R113). -/
theorem pmul_eq_xorSum (a b : Byte) : pmul a b = xorSum (bitSummand a b) 8 := reducePoly_carrylessProduct a b le_rfl

/-- A byte is the sum of its bits, bit `i` being `g^i`. -/
theorem xorSum_bitSummand_one : ∀ b : Byte, xorSum (bitSummand 1 b) 8 = b := by decide +kernel

/-- `mul` of valid tables is the polynomial product (R113). -/
theorem Tables.mul_eq_pmul {t : Tables} (ht : tablesBuilt t) (a b : Byte) : t.mul a b = pmul a b := by
  have hbit : ∀ i, t.mul a (bitSummand 1 b i) = bitSummand a b i := by
    intro i
    cases hb : b.getLsbD i
    · simp [bitSummand, hb]
    · simp only [bitSummand, hb, if_true]
      rw [mul_comm ht, power_mul ht]
  calc t.mul a b = t.mul a (xorSum (bitSummand 1 b) 8) := by rw [xorSum_bitSummand_one]
    _ = xorSum (bitSummand a b) 8 := by simp only [mul_xorSum ht, hbit]
    _ = pmul a b := (pmul_eq_xorSum a b).symm

end Sys2Proof.Machine
end

section
/-! Proofs: the field commands INIT, GFMUL, GFDIV and GFINV (R100, R107 to R109), and the errors of every command
(R211). -/

namespace Sys2Proof.Machine

/-- Settles O7: the first INIT leaves the tables it builds, which meet R21 and R22 whatever the old ones held. -/
theorem initBuildsTables : Obligations.InitBuildsTables := by
  intro s
  rcases execInit_cases s with ⟨htv, hs⟩ | ⟨htv, hs⟩
  · exact ⟨fun h => absurd (h.symm.trans htv) Bool.false_ne_true, fun _ => hs⟩
  · exact ⟨fun _ => ⟨builtTables s.tables, tablesBuilt_builtTables s.tables, logTable_zero s.tables.log, hs⟩,
      fun h => absurd (htv.symm.trans h) Bool.false_ne_true⟩

/-- Settles O38: each effect of a command leaves `OK` or an error of the command's row. -/
theorem eachCommandRaisesItsOwnErrors : Obligations.EachCommandRaisesItsOwnErrors := by
  intro i s t h
  cases exec_effect h with
  | onlyErr he => exact he
  | tables | result | matrix | store => exact .inl rfl

/-! ### The commands after INIT -/

section AfterInit
variable {s : State} (htv : s.tv = true)
include htv

/-- GFMUL with valid tables completes (R107). -/
theorem exec_gfmul_of_tv (a b : Byte) :
    exec (.gfmul a b) s = .next ((s.setResult (s.tables.mul a b)).setErr .ok) := by
  rcases execGfmul_cases a b s with ⟨h, -⟩ | ⟨-, hs⟩
  · exact absurd (h.symm.trans htv) Bool.false_ne_true
  · exact hs

/-- GFDIV by a nonzero divisor completes (R108). -/
theorem exec_gfdiv_of_tv (a : Byte) (b : NonzeroByte) :
    exec (.gfdiv a b.val) s = .next ((s.setResult (s.tables.div a b)).setErr .ok) := by
  rcases execGfdiv_cases a b.val s with ⟨h, -⟩ | ⟨-, h, -⟩ | ⟨-, _, hs⟩
  · exact absurd (h.symm.trans htv) Bool.false_ne_true
  · exact absurd h b.2
  · exact hs

/-- GFDIV by zero fails (R108, R206). -/
theorem exec_gfdiv_zero_of_tv (a : Byte) : exec (.gfdiv a 0#8) s = .next (s.setErr .divZero) := by
  rcases execGfdiv_cases a 0#8 s with ⟨h, -⟩ | ⟨-, -, hs⟩ | ⟨-, h, -⟩
  · exact absurd (h.symm.trans htv) Bool.false_ne_true
  · exact hs
  · exact absurd rfl h

/-- GFINV of a nonzero operand completes (R109). -/
theorem exec_gfinv_of_tv (a : NonzeroByte) :
    exec (.gfinv a.val) s = .next ((s.setResult (s.tables.inv a)).setErr .ok) := by
  rcases execGfinv_cases a.val s with ⟨h, -⟩ | ⟨-, h, -⟩ | ⟨-, _, hs⟩
  · exact absurd (h.symm.trans htv) Bool.false_ne_true
  · exact absurd h a.2
  · exact hs

/-- GFINV of zero fails (R109, R206). -/
theorem exec_gfinv_zero_of_tv : exec (.gfinv 0#8) s = .next (s.setErr .divZero) := by
  rcases execGfinv_cases 0#8 s with ⟨h, -⟩ | ⟨-, -, hs⟩ | ⟨-, h, -⟩
  · exact absurd (h.symm.trans htv) Bool.false_ne_true
  · exact hs
  · exact absurd rfl h

end AfterInit

/-! ### The table entries the three functions look up, whatever the tables hold -/

theorem Tables.power_eq_getD_exp (t : Tables) (e : Nat) : t.power e = t.exp.getD (e % 255) 0 := by
  have h : e % 255 < 256 := by omega
  simp [Tables.power, Vector.getD, Config.order, h]

theorem Tables.logOf_eq_getD_log (t : Tables) (a : NonzeroByte) : t.logOf a = (t.log.getD a.val.toNat 0).toNat := by
  have h : a.val.toNat < 256 := a.val.isLt
  simp [Tables.logOf, Vector.getD, h]

/-- Settles O10: the product is the power at the sum of the logarithms. -/
theorem gfmulLooksUpTheSum : Obligations.GfmulLooksUpTheSum := by
  intro a b s htv
  rw [exec_gfmul_of_tv htv]
  by_cases ha : a = 0#8
  · simp [ha]
  · by_cases hb : b = 0#8
    · simp [hb]
    · simp [Tables.mul, ha, hb, Tables.power_eq_getD_exp, Tables.logOf_eq_getD_log]

/-- Settles O12: the quotient is the power at the difference of the logarithms. -/
theorem gfdivLooksUpTheDifference : Obligations.GfdivLooksUpTheDifference := by
  intro a b s htv
  refine ⟨fun hb => ?_, fun hb => hb ▸ exec_gfdiv_zero_of_tv htv a⟩
  rw [exec_gfdiv_of_tv htv a ⟨b, hb⟩]
  by_cases ha : a = 0#8
  · simp [Tables.div, ha]
  · simp [Tables.div, ha, Tables.power_eq_getD_exp, Tables.logOf_eq_getD_log, Config.order]

/-- Settles O13: the inverse is the power at the complement of the logarithm. -/
theorem gfinvLooksUpTheComplement : Obligations.GfinvLooksUpTheComplement := by
  intro a s htv
  refine ⟨fun ha => ?_, fun ha => ha ▸ exec_gfinv_zero_of_tv htv⟩
  rw [exec_gfinv_of_tv htv ⟨a, ha⟩, Tables.inv, Tables.power_eq_getD_exp, Tables.logOf_eq_getD_log, Config.order]

/-- Settles O11: with valid tables the table product is the polynomial product. -/
theorem gfmulIsThePolynomialProduct : Obligations.GfmulIsThePolynomialProduct := by
  intro a b s htv ht
  rw [exec_gfmul_of_tv htv, Tables.mul_eq_pmul ht]

/-- Settles O14: the inverse is nonzero, and its inverse is the operand. -/
theorem gfinvUndoesItself : Obligations.GfinvUndoesItself := by
  intro a s htv ht ha
  have hinv := Tables.inv_ne_zero ht ⟨a, ha⟩
  have hfirst := exec_gfinv_of_tv htv ⟨a, ha⟩
  have hsecond := exec_gfinv_of_tv (s := (s.setResult (s.tables.inv ⟨a, ha⟩)).setErr .ok) htv ⟨_, hinv⟩
  exact ⟨_, _, hfirst, hsecond, Tables.inv_inv ht ⟨a, ha⟩, rfl⟩

end Sys2Proof.Machine
end

section
/-! Proofs: the commands BUILD and MATRD and the entries of the matrix BUILD leaves (R130, R132, R133, R135, R136,
R139). -/

namespace Sys2Proof.Machine

/-! ### BUILD and MATRD after INIT -/

section AfterInit
variable {s : State} (htv : s.tv = true)
include htv

/-- BUILD of legal dimensions completes with their matrix (R130). -/
theorem exec_build_of_legal {n k : Nat} (h : legalDims n k) :
    exec (.build n k) s = .next ((s.setMatrix (generatorMatrix s.tables n k h.2.2) n k).setErr .ok) := by
  rcases execBuild_cases n k s with ⟨h', -⟩ | ⟨-, h', -⟩ | ⟨-, _, hs⟩
  · exact absurd (h'.symm.trans htv) Bool.false_ne_true
  · exact absurd h h'
  · exact hs

/-- BUILD of other dimensions fails (R130, R202). -/
theorem exec_build_of_not_legal {n k : Nat} (h : ¬ legalDims n k) : exec (.build n k) s = .next (s.setErr .config) := by
  rcases execBuild_cases n k s with ⟨h', -⟩ | ⟨-, -, hs⟩ | ⟨-, h', -⟩
  · exact absurd (h'.symm.trans htv) Bool.false_ne_true
  · exact hs
  · exact absurd h' h

/-- MATRD makes its two checks in order and reads the entry (R136). -/
theorem exec_matrd_of_tv (row col : Nat) : exec (.matrd row col) s =
    if s.mv = false then .next (s.setErr .noMatrix)
    else if s.dimN.toNat ≤ row ∨ s.dimK.toNat ≤ col then .next (s.setErr .index)
    else .next ((s.setResult (entryAt s.gen row col)).setErr .ok) := by
  simp [exec, execMatrd, guarded_cons, needsTables, needsMatrix, htv]

end AfterInit

/-- Settles O16: dimensions on the wrong side of one of the three bounds are not legal. -/
theorem buildRejectsIllegalDims : Obligations.BuildRejectsIllegalDims := by
  intro n k s htv h
  exact exec_build_of_not_legal htv fun hlegal => by omega

/-- Settles O20: each clause decides the two checks of MATRD. -/
theorem matrdReadsOneEntry : Obligations.MatrdReadsOneEntry := by
  intro row col s htv
  rw [exec_matrd_of_tv htv]
  refine ⟨fun hmv hrow hcol => ?_, fun hmv => if_pos hmv, fun hmv hout => ?_⟩
  · rw [hmv, if_neg Bool.false_ne_true.symm, if_neg (by omega)]
  · rw [hmv, if_neg Bool.false_ne_true.symm, if_pos hout]

/-! ### The entries of the matrix -/

/-- The identity block (R132). -/
theorem entryAt_generatorMatrix_identity (t : Tables) {n k r c : Nat} (hn : n ≤ 256) (hr : r < n) (hrk : r < k)
    (hc : c < k) : entryAt (generatorMatrix t n k hn) r c = if r = c then 1#8 else 0#8 := by
  rw [entryAt_generatorMatrix t hn hr hc, generatorEntry_identity t hc _ hrk]

/-- The parity rows (R133). -/
theorem entryAt_generatorMatrix_parity (t : Tables) {n k r c : Nat} (hn : n ≤ 256) (hr : r < n) (hkr : k ≤ r)
    (hc : c < k) : entryAt (generatorMatrix t n k hn) r c =
      t.inv ⟨indexXor r c, indexXor_ne_zero hkr hc (hr.trans_le hn)⟩ := by
  rw [entryAt_generatorMatrix t hn hr hc, generatorEntry_parity t hc _ hkr]

/-- Settles O15: the matrix is the generator matrix, and legal dimensions fit the 9 bits of `N` and `K`. -/
theorem buildFillsTheMatrix : Obligations.BuildFillsTheMatrix := by
  intro n k s htv h
  have ⟨_, hkn, hn⟩ := h
  refine ⟨generatorMatrix s.tables n k hn, exec_build_of_legal htv h, ?_, ?_, length_generatorMatrix _ _ _ _,
    fun _ => length_row_generatorMatrix, fun r hr c hc => ?_, fun r hr hkr c hc => ?_⟩
  · simp only [setMatrix_dimN, BitVec.toNat_ofNat]
    omega
  · simp only [setMatrix_dimK, BitVec.toNat_ofNat]
    omega
  · exact entryAt_generatorMatrix_identity _ hn (hr.trans_le hkn) hr hc
  · exact ⟨_, entryAt_generatorMatrix_parity _ hn hr hkr hc⟩

/-- Any two valid tables have one `inv` (R21, R22, R106). -/
theorem Tables.inv_eq_of_built {t t' : Tables} (ht : tablesBuilt t) (ht' : tablesBuilt t') (b : NonzeroByte) :
    t.inv b = t'.inv b := by
  rw [inv_eq_power ht, inv_eq_power ht', logOf_eq_of_built ht ht']

/-- Any two valid tables have one entry at `(r, c)` (R135). -/
theorem generatorEntry_eq_of_built {t t' : Tables} (ht : tablesBuilt t) (ht' : tablesBuilt t') {k r c : Nat}
    (hc : c < k) (hr : r < 256) : generatorEntry t k r c hc hr = generatorEntry t' k r c hc hr := by
  rcases Nat.lt_or_ge r k with hrk | hkr
  · rw [generatorEntry_identity t hc hr hrk, generatorEntry_identity t' hc hr hrk]
  · rw [generatorEntry_parity t hc hr hkr, generatorEntry_parity t' hc hr hkr, Tables.inv_eq_of_built ht ht']

/-- Settles O17: entry `(r, c)` depends on `k` alone and not on `n`, and on no table entry but those of valid tables. -/
theorem matrixIsAPrefixOfTheLarger : Obligations.MatrixIsAPrefixOfTheLarger := by
  intro t t' n n' k h h' ht ht' hnn
  refine List.ext_getElem (by simp [length_generatorMatrix, hnn]) fun r _ _ => ?_
  simp only [generatorMatrix, List.getElem_take, List.getElem_ofFn, generatorEntry_eq_of_built ht ht']

/-- Settles O18: a parity entry is an inverse. -/
theorem parityEntriesAreNonzero : Obligations.ParityEntriesAreNonzero := by
  rintro s ⟨htables, hmatrix, -, -⟩ hmv r hr hkr c hc
  obtain ⟨htv, hlegal, hgen⟩ := hmatrix hmv
  rw [hgen, entryAt_generatorMatrix_parity s.tables hlegal.2.2 hr hkr hc]
  exact Tables.inv_ne_zero (htables htv) _

end Sys2Proof.Machine
end

section
/-! Proofs: any `k` rows of the generator matrix are independent (R131, R134). Under valid tables the bytes are a field,
and there a combination of the columns that vanishes on `k` rows is a polynomial of degree below `k` with `k` roots. -/

namespace Sys2Proof.Machine

/-! ### The bytes as a field -/

/-- `φ` embeds the bytes, with `⊕` and `mul` of the tables `t`, into the field `F`. -/
structure FieldView (t : Tables) {F : Type} [Field F] (φ : Byte → F) : Prop where
  map_xor : ∀ a b, φ (a ^^^ b) = φ a + φ b
  map_mul : ∀ a b, φ (t.mul a b) = φ a * φ b
  injective : Function.Injective φ

/-- `inv`, and `0x00` for `0x00`. -/
def Tables.invOrZero (t : Tables) (a : Byte) : Byte := if ha : a = 0#8 then 0#8 else t.inv ⟨a, ha⟩

theorem Tables.invOrZero_zero (t : Tables) : t.invOrZero 0#8 = 0#8 := dif_pos rfl

/-- The bytes with `⊕` and `mul` of valid tables satisfy the laws of a field (R112). -/
@[reducible] def fieldOfBuilt {t : Tables} (ht : tablesBuilt t) : Field Byte :=
  @Field.ofMinimalAxioms Byte ⟨(· ^^^ ·)⟩ ⟨t.mul⟩ ⟨id⟩ ⟨t.invOrZero⟩ ⟨0#8⟩ ⟨1#8⟩
    BitVec.xor_assoc (fun _ => BitVec.zero_xor) (fun _ => BitVec.xor_self) (Tables.mul_assoc ht) (Tables.mul_comm ht)
    (Tables.one_mul ht) (fun a ha => (congrArg (t.mul a) (dif_neg ha)).trans (Tables.mul_inv ht ⟨a, ha⟩))
    t.invOrZero_zero (Tables.mul_xor ht) ⟨0#8, 1#8, by decide⟩

theorem exists_fieldView {t : Tables} (ht : tablesBuilt t) :
    ∃ (F : Type) (_ : Field F) (φ : Byte → F), FieldView t φ :=
  ⟨Byte, fieldOfBuilt ht, id,
    @FieldView.mk t Byte (fieldOfBuilt ht) id (fun _ _ => rfl) (fun _ _ => rfl) Function.injective_id⟩

namespace FieldView
variable {t : Tables} {F : Type} [Field F] {φ : Byte → F} (hφ : FieldView t φ)
include hφ

theorem map_zero : φ 0#8 = 0 := by simpa using hφ.map_xor 0#8 0#8

theorem map_eq_zero_iff {a : Byte} : φ a = 0 ↔ a = 0#8 := by rw [← hφ.map_zero, hφ.injective.eq_iff]

/-- A byte is its own negative. -/
theorem map_xor_eq_sub (a b : Byte) : φ (a ^^^ b) = φ a - φ b := by
  rw [eq_sub_iff_add_eq, ← hφ.map_xor, BitVec.xor_assoc, BitVec.xor_self, BitVec.xor_zero]

theorem map_one (ht : tablesBuilt t) : φ 1#8 = 1 := by
  have hne : φ 1#8 ≠ 0 := hφ.map_eq_zero_iff.not.mpr (by decide)
  have hsq : φ 1#8 * φ 1#8 = φ 1#8 := by rw [← hφ.map_mul, show t.mul 1#8 1#8 = 1#8 from Tables.mul_one ht 1]
  exact mul_right_cancel₀ hne (hsq.trans (one_mul _).symm)

theorem map_inv (ht : tablesBuilt t) (a : NonzeroByte) : φ (t.inv a) = (φ a.val)⁻¹ :=
  eq_inv_of_mul_eq_one_left (by rw [← hφ.map_mul, Tables.inv_mul ht, ← hφ.map_one ht]; rfl)

theorem map_xorSum (f : Nat → Byte) (n : Nat) : φ (xorSum f n) = ∑ c ∈ Finset.range n, φ (f c) := by
  induction n with
  | zero => exact hφ.map_zero
  | succ n ih => rw [xorSum, hφ.map_xor, ih, Finset.sum_range_succ]

end FieldView

/-! ### Independent rows -/

section Interpolation
variable {F : Type} [Field F] {k : Nat} {p x : Nat → F}

/-- The vector `x` over the weights of the nodes `p 0, ..., p (k-1)`. -/
def overWeights (k : Nat) (p x : Nat → F) (c : Nat) : F := x c / Lagrange.nodalWeight (Finset.range k) p c

/-- The polynomial of degree below `k` that takes the value `x c`, over the weight of the node, at `p c`. -/
noncomputable def cauchyPolynomial (k : Nat) (p x : Nat → F) : Polynomial F :=
  Lagrange.interpolate (Finset.range k) p (overWeights k p x)

theorem eval_cauchyPolynomial_node (hp : Set.InjOn p ↑(Finset.range k)) {c : Nat} (hc : c < k) :
    (cauchyPolynomial k p x).eval (p c) = overWeights k p x c :=
  Lagrange.eval_interpolate_at_node _ hp (Finset.mem_range.mpr hc)

theorem overWeights_eq_zero_iff (hp : Set.InjOn p ↑(Finset.range k)) {c : Nat} (hc : c < k) :
    overWeights k p x c = 0 ↔ x c = 0 := by
  rw [overWeights, div_eq_zero_iff, or_iff_left (Lagrange.nodalWeight_ne_zero hp (Finset.mem_range.mpr hc))]

/-- Off the nodes the polynomial is the Cauchy sum, times the product of the distances from the nodes. -/
theorem eval_cauchyPolynomial_off (hp : Set.InjOn p ↑(Finset.range k)) {z : F} (hz : ∀ c ∈ Finset.range k, z ≠ p c) :
    (cauchyPolynomial k p x).eval z =
      (Lagrange.nodal (Finset.range k) p).eval z * ∑ c ∈ Finset.range k, (z - p c)⁻¹ * x c := by
  rw [cauchyPolynomial, Lagrange.eval_interpolate_not_at_node _ hz]
  congr 1
  refine Finset.sum_congr rfl fun c hc => ?_
  have := Lagrange.nodalWeight_ne_zero hp hc
  rw [overWeights]
  field_simp

/-- Over distinct points `p`, let the vector `x` of length `k` vanish at each index of `rs` below `k` and its Cauchy sum
vanish at each index of `rs` from `k` on. When `rs` has at least `k` indices, `x` vanishes: its polynomial has more
roots than its degree allows. -/
theorem eq_zero_of_cauchy_sums {rs : Finset Nat} (hp : Set.InjOn p (↑rs ∪ ↑(Finset.range k))) (hcard : k ≤ rs.card)
    (hnode : ∀ r ∈ rs, r < k → x r = 0)
    (hsum : ∀ r ∈ rs, k ≤ r → ∑ c ∈ Finset.range k, (p r - p c)⁻¹ * x c = 0) :
    ∀ c < k, x c = 0 := by
  have hnodes : Set.InjOn p ↑(Finset.range k) := hp.mono Set.subset_union_right
  have hroot : ∀ r ∈ rs, (cauchyPolynomial k p x).eval (p r) = 0 := by
    intro r hr
    rcases Nat.lt_or_ge r k with hrk | hkr
    · rw [eval_cauchyPolynomial_node hnodes hrk, overWeights_eq_zero_iff hnodes hrk, hnode r hr hrk]
    · have hoff : ∀ c ∈ Finset.range k, p r ≠ p c := fun c hc h => by
        have := hp (.inl hr) (.inr hc) h
        have := Finset.mem_range.mp hc
        omega
      rw [eval_cauchyPolynomial_off hnodes hoff, hsum r hr hkr, mul_zero]
  have hzero : cauchyPolynomial k p x = 0 :=
    Polynomial.eq_zero_of_degree_lt_of_eval_index_eq_zero rs (hp.mono Set.subset_union_left)
      ((Lagrange.degree_interpolate_lt _ hnodes).trans_le (by simpa using hcard)) hroot
  intro c hc
  rw [← overWeights_eq_zero_iff hnodes hc, ← eval_cauchyPolynomial_node hnodes hc, hzero, Polynomial.eval_zero]

end Interpolation

/-- A matrix applied to a vector: the sums of the products along its rows (R152, R175). -/
def Tables.apply (t : Tables) (k : Nat) (w : ByteMatrix) (x : Nat → Byte) (r : Nat) : Byte :=
  xorSum (fun c => t.mul (entryAt w r c) (x c)) k

/-- Bytes of indices below 256 are distinct. -/
theorem ofNat_byte_injOn : Set.InjOn (BitVec.ofNat 8) (Set.Iio 256) := by
  intro i hi j hj h
  simpa [Nat.mod_eq_of_lt hi, Nat.mod_eq_of_lt hj] using congrArg BitVec.toNat h

/-- A vector that `k` distinct rows of the generator matrix take to zero is zero (R131). -/
theorem eq_zero_of_generator_rows {t : Tables} (ht : tablesBuilt t) {n k : Nat} (h : legalDims n k) {rs : Finset Nat}
    (hcard : k ≤ rs.card) (hlt : ∀ r ∈ rs, r < n) {x : Nat → Byte}
    (hx : ∀ r ∈ rs, t.apply k (generatorMatrix t n k h.2.2) x r = 0#8) : ∀ c < k, x c = 0#8 := by
  have ⟨_, hkn, hn⟩ := h
  obtain ⟨F, _, φ, hφ⟩ := exists_fieldView ht
  have hrow : ∀ r ∈ rs, ∑ c ∈ Finset.range k, φ (entryAt (generatorMatrix t n k hn) r c) * φ (x c) = 0 := by
    intro r hr
    simpa [Tables.apply, hφ.map_xorSum, hφ.map_mul, hφ.map_zero] using congrArg φ (hx r hr)
  have hinj : Set.InjOn (fun i => φ (BitVec.ofNat 8 i)) (↑rs ∪ ↑(Finset.range k)) := by
    refine (hφ.injective.injOn.comp ofNat_byte_injOn fun _ _ => Set.mem_univ _).mono ?_
    rintro i (hi | hi)
    · exact (hlt i hi).trans_le hn
    · exact (Finset.mem_range.mp hi).trans_le (hkn.trans hn)
  have hzero := eq_zero_of_cauchy_sums (x := fun c => φ (x c)) hinj hcard (fun r hr hrk => ?_) fun r hr hkr => ?_
  · exact fun c hc => hφ.map_eq_zero_iff.mp (hzero c hc)
  · rw [← hrow r hr, Finset.sum_eq_single_of_mem r (Finset.mem_range.mpr hrk) fun c hc hne => ?_]
    · rw [entryAt_generatorMatrix_identity t hn (hlt r hr) hrk hrk, if_pos rfl, hφ.map_one ht, one_mul]
    · rw [entryAt_generatorMatrix_identity t hn (hlt r hr) hrk (Finset.mem_range.mp hc), if_neg hne.symm, hφ.map_zero,
        zero_mul]
  · rw [← hrow r hr]
    refine Finset.sum_congr rfl fun c hc => ?_
    rw [entryAt_generatorMatrix_parity t hn (hlt r hr) hkr (Finset.mem_range.mp hc), hφ.map_inv ht,
      ← hφ.map_xor_eq_sub]
    rfl

end Sys2Proof.Machine
end

section
/-! Proofs: the elimination (R174). Its rounds make the same row operations on both matrices of the pair, none of which
changes the vectors the left one takes to zero. -/

namespace Sys2Proof.Machine

/-! ### Repeated sums -/

theorem Tables.xor_mul {t : Tables} (ht : tablesBuilt t) (a b c : Byte) :
    t.mul (a ^^^ b) c = t.mul a c ^^^ t.mul b c := by
  rw [mul_comm ht, mul_xor ht, mul_comm ht c, mul_comm ht c]

theorem xorSum_xor (f g : Nat → Byte) (n : Nat) :
    xorSum (fun c => f c ^^^ g c) n = xorSum f n ^^^ xorSum g n := by
  induction n with
  | zero => exact BitVec.xor_self.symm
  | succ n ih =>
    simp only [xorSum, ih]
    ac_rfl

/-- A sum with zero terms only is zero. -/
theorem xorSum_eq_zero {f : Nat → Byte} {n : Nat} (h : ∀ c < n, f c = 0#8) : xorSum f n = 0#8 := by
  induction n with
  | zero => rfl
  | succ n ih => rw [xorSum, ih fun c hc => h c (by omega), h n (by omega), BitVec.xor_self]

/-- A sum with one nonzero term is that term. -/
theorem xorSum_eq_single {f : Nat → Byte} {n j : Nat} (hj : j < n) (h : ∀ c < n, c ≠ j → f c = 0#8) :
    xorSum f n = f j := by
  induction n with
  | zero => omega
  | succ n ih =>
    rcases Nat.lt_succ_iff_lt_or_eq.mp hj with hjn | rfl
    · rw [xorSum, ih hjn fun c hc => h c (by omega), h n (by omega) (by omega), BitVec.xor_zero]
    · rw [xorSum, xorSum_eq_zero fun c hc => h c (by omega) (by omega), BitVec.zero_xor]

/-- A row with a single `0x01` picks one entry of the vector. -/
theorem Tables.apply_of_unit_row {t : Tables} (ht : tablesBuilt t) {k r p : Nat} {w : ByteMatrix} (hp : p < k)
    (h : ∀ c < k, entryAt w r c = if p = c then 1#8 else 0#8) (x : Nat → Byte) : t.apply k w x r = x p := by
  rw [Tables.apply, xorSum_eq_single hp fun c hc hcp => by rw [h c hc, if_neg hcp.symm, t.zero_mul], h p hp, if_pos rfl]
  exact Tables.one_mul ht (x p)

/-- A matrix applied to a vector depends on the vector's first `k` entries only. -/
theorem Tables.apply_congr {t : Tables} {k : Nat} {w : ByteMatrix} {x y : Nat → Byte} (h : ∀ c < k, x c = y c)
    (r : Nat) : t.apply k w x r = t.apply k w y r := xorSum_congr fun c hc => congrArg (t.mul _) (h c hc)

/-! ### The row operations by entry -/

/-- `k` rows of `k` entries. -/
def Square (k : Nat) (w : ByteMatrix) : Prop := w.length = k ∧ ∀ row ∈ w, row.length = k

theorem square_identityMatrix (k : Nat) : Square k (identityMatrix k) := by simp [Square, identityMatrix, unitRow]

/-- Setting a row in range sets that row alone. -/
theorem getD_set_row {w : ByteMatrix} {c : Nat} (hc : c < w.length) (row : List Byte) (i : Nat) :
    (w.set c row).getD i [] = if i = c then row else w.getD i [] := by
  by_cases hi : i = c
  · simp [hi, hc]
  · simp [List.getD, hi, Ne.symm hi]

theorem Tables.zero_div (t : Tables) (p : NonzeroByte) : t.div 0 p = 0 := by simp [Tables.div]

theorem length_addScaled {t : Tables} {k : Nat} {row prow : List Byte} (h : row.length = k) (h' : prow.length = k)
    (f : Byte) : (addScaled t f prow row).length = k := by
  unfold addScaled
  split_ifs
  · exact h
  · rw [List.length_zipWith, h, h', Nat.min_self]

theorem getD_addScaled {t : Tables} {k j : Nat} {row prow : List Byte} (h : row.length = k) (h' : prow.length = k)
    (hj : j < k) (f : Byte) : (addScaled t f prow row).getD j 0 = row.getD j 0 ^^^ t.mul f (prow.getD j 0) := by
  unfold addScaled
  split_ifs with hf
  · rw [hf, t.zero_mul, BitVec.xor_zero]
  · simp [List.getD, h, h', hj]

section Rows
variable {k : Nat} {w : ByteMatrix} (hw : Square k w)
include hw

theorem Square.length_getD {r : Nat} (hr : r < k) : (w.getD r []).length = k := by
  obtain ⟨hlen, hrows⟩ := hw
  rw [List.getD_eq_getElem _ _ (hlen.symm ▸ hr)]
  exact hrows _ (List.getElem_mem _)

theorem Square.set {row : List Byte} (h : row.length = k) (c : Nat) : Square k (w.set c row) := by
  obtain ⟨hlen, hrows⟩ := hw
  refine ⟨by rw [List.length_set, hlen], fun row' hrow' => ?_⟩
  rcases List.mem_or_eq_of_mem_set hrow' with hrow' | rfl
  · exact hrows row' hrow'
  · exact h

theorem square_swapRows {r c : Nat} (hr : r < k) (hc : c < k) : Square k (swapRows w r c) :=
  (hw.set (hw.length_getD hc) r).set (hw.length_getD hr) c

theorem entryAt_swapRows {r c : Nat} (hr : r < k) (hc : c < k) (i j : Nat) :
    entryAt (swapRows w r c) i j = entryAt w (Equiv.swap c r i) j := by
  obtain ⟨hlen, -⟩ := hw
  rw [entryAt, swapRows, getD_set_row (by rw [List.length_set]; omega), getD_set_row (by omega), Equiv.swap_apply_def,
    entryAt]
  split_ifs <;> rfl

theorem square_scaleRow {t : Tables} {c : Nat} (hc : c < k) (p : NonzeroByte) : Square k (scaleRow t w c p) :=
  hw.set (by rw [List.length_map, hw.length_getD hc]) c

theorem entryAt_scaleRow {t : Tables} {c : Nat} (hc : c < k) (p : NonzeroByte) (i j : Nat) :
    entryAt (scaleRow t w c p) i j = if i = c then t.div (entryAt w c j) p else entryAt w i j := by
  rw [entryAt, scaleRow, getD_set_row (hw.1.symm ▸ hc)]
  split_ifs
  · rw [← t.zero_div p]
    exact List.getD_map _ _ (t.div · p)
  · rfl

theorem square_clearColumn {t : Tables} {c : Nat} (hc : c < k) (factors : List Byte) :
    Square k (clearColumn t factors w c) := by
  refine ⟨by rw [clearColumn, List.length_mapIdx, hw.1], fun row hrow => ?_⟩
  obtain ⟨i, hi, rfl⟩ := List.mem_mapIdx.mp hrow
  have hrow := hw.2 _ (List.getElem_mem hi)
  split_ifs
  · exact hrow
  · rw [length_addScaled hrow (hw.length_getD hc)]

theorem entryAt_clearColumn {t : Tables} {c i j : Nat} (hc : c < k) (factors : List Byte) (hi : i < k) (hj : j < k) :
    entryAt (clearColumn t factors w c) i j =
      if i = c then entryAt w c j else entryAt w i j ^^^ t.mul (factors.getD i 0) (entryAt w c j) := by
  have hi' : i < w.length := hw.1.symm ▸ hi
  have hrow : (clearColumn t factors w c).getD i [] =
      if i = c then w.getD i [] else addScaled t (factors.getD i 0) (w.getD c []) (w.getD i []) := by
    simp [clearColumn, List.getD, hi']
  rw [entryAt, hrow]
  split_ifs with h
  · rw [h, entryAt]
  · exact getD_addScaled (hw.length_getD hi) (hw.length_getD hc) hj _

end Rows

/-! ### One round -/

/-- What a round of the elimination makes of either matrix of the pair. -/
def roundMatrix (t : Tables) (factors : List Byte) (w : ByteMatrix) (r c : Nat) (p : NonzeroByte) : ByteMatrix :=
  clearColumn t factors (scaleRow t (swapRows w r c) c p) c

/-- The factors of a round: column `c` of the left matrix after the swap and the division (R174). -/
def roundFactors (t : Tables) (w : ByteMatrix) (r c : Nat) (p : NonzeroByte) : List Byte :=
  (scaleRow t (swapRows w r c) c p).map fun row => row.getD c 0

theorem eliminateColumn_of_pivot {t : Tables} {k c r : Nat} {w v : ByteMatrix} {p : NonzeroByte}
    (h : findPivot w c c (k - c) = some (r, p)) : eliminateColumn t k (w, v) c =
      some (roundMatrix t (roundFactors t w r c p) w r c p, roundMatrix t (roundFactors t w r c p) v r c p) := by
  simp [eliminateColumn, h, roundMatrix, roundFactors]

theorem eliminateColumn_of_no_pivot {t : Tables} {k c : Nat} {w v : ByteMatrix}
    (h : findPivot w c c (k - c) = none) : eliminateColumn t k (w, v) c = none := by simp [eliminateColumn, h]

/-- The pivot found is an entry of column `c` in the rows searched. -/
theorem findPivot_eq_some {w : ByteMatrix} {c r fuel q : Nat} {p : NonzeroByte}
    (h : findPivot w c r fuel = some (q, p)) : r ≤ q ∧ q < r + fuel ∧ entryAt w q c = p.val := by
  induction fuel generalizing r with
  | zero => simp [findPivot] at h
  | succ fuel ih =>
    rw [findPivot] at h
    split at h
    · obtain ⟨hle, hlt, hp⟩ := ih h
      exact ⟨by omega, by omega, hp⟩
    · cases h
      exact ⟨le_rfl, by omega, rfl⟩

/-- With no pivot the rows searched are zero in column `c`. -/
theorem findPivot_eq_none {w : ByteMatrix} {c r fuel : Nat} (h : findPivot w c r fuel = none) :
    ∀ i, r ≤ i → i < r + fuel → entryAt w i c = 0#8 := by
  induction fuel generalizing r with
  | zero => omega
  | succ fuel ih =>
    rw [findPivot] at h
    split at h
    next hz =>
      intro i hri hi
      rcases Nat.eq_or_lt_of_le hri with rfl | hlt
      · exact hz
      · exact ih h i hlt (by omega)
    · cases h

section Round
variable {t : Tables} {k : Nat} {w : ByteMatrix} {r c : Nat} (hw : Square k w) (hr : r < k) (hc : c < k)
  (p : NonzeroByte)
include hw hr hc

theorem square_roundMatrix (factors : List Byte) : Square k (roundMatrix t factors w r c p) :=
  square_clearColumn (square_scaleRow (square_swapRows hw hr hc) hc p) hc factors

/-- Row `c` becomes row `r` over the pivot; every other row adds its factor times that row. -/
theorem entryAt_roundMatrix (factors : List Byte) {i j : Nat} (hi : i < k) (hj : j < k) :
    entryAt (roundMatrix t factors w r c p) i j =
      if i = c then t.div (entryAt w r j) p
      else entryAt w (Equiv.swap c r i) j ^^^ t.mul (factors.getD i 0) (t.div (entryAt w r j) p) := by
  have hswap := square_swapRows hw hr hc
  rw [roundMatrix, entryAt_clearColumn (square_scaleRow hswap hc p) hc factors hi hj, entryAt_scaleRow hswap hc,
    entryAt_scaleRow hswap hc, if_pos rfl, entryAt_swapRows hw hr hc, entryAt_swapRows hw hr hc, Equiv.swap_apply_left]
  split_ifs <;> rfl

theorem getD_roundFactors {i : Nat} (hi : i ≠ c) :
    (roundFactors t w r c p).getD i 0 = entryAt w (Equiv.swap c r i) c := by
  calc (roundFactors t w r c p).getD i 0 = entryAt (scaleRow t (swapRows w r c) c p) i c :=
        List.getD_map _ [] fun row : List Byte => row.getD c 0
    _ = entryAt w (Equiv.swap c r i) c := by
        rw [entryAt_scaleRow (square_swapRows hw hr hc) hc, if_neg hi, entryAt_swapRows hw hr hc]

/-- The round's row operations on the products with a vector. -/
theorem apply_roundMatrix (ht : tablesBuilt t) (factors : List Byte) (x : Nat → Byte) {i : Nat} (hi : i < k) :
    t.apply k (roundMatrix t factors w r c p) x i =
      if i = c then t.mul (t.inv p) (t.apply k w x r)
      else t.apply k w x (Equiv.swap c r i) ^^^ t.mul (factors.getD i 0) (t.mul (t.inv p) (t.apply k w x r)) := by
  have hdiv : ∀ a b, t.mul (t.div a p) b = t.mul (t.inv p) (t.mul a b) := fun a b => by
    rw [Tables.div_eq_mul_inv ht, Tables.mul_comm ht a, Tables.mul_assoc ht]
  simp only [Tables.apply, Tables.mul_xorSum ht]
  split_ifs with hic
  · refine xorSum_congr fun j hj => ?_
    rw [entryAt_roundMatrix hw hr hc p factors hi hj, if_pos hic, hdiv]
  · rw [← xorSum_xor]
    refine xorSum_congr fun j hj => ?_
    rw [entryAt_roundMatrix hw hr hc p factors hi hj, if_neg hic, Tables.xor_mul ht, Tables.mul_assoc ht, hdiv]

end Round

/-! ### The invariant of the elimination -/

/-- The pair `(W, V)` of the elimination of `d` after `c` rounds: the rows of `V` combine the rows of `d` to those of
`W`, `W` takes no more vectors to zero than `d`, and the first `c` columns of `W` are those of the identity. -/
structure Reduced (t : Tables) (k : Nat) (d : ByteMatrix) (c : Nat) (wv : ByteMatrix × ByteMatrix) : Prop where
  square_left : Square k wv.1
  square_right : Square k wv.2
  combines : ∀ x, ∀ r < k, t.apply k wv.2 (t.apply k d x) r = t.apply k wv.1 x r
  kernel : ∀ x, (∀ r < k, t.apply k wv.1 x r = 0#8) → ∀ r < k, t.apply k d x r = 0#8
  unit_columns : ∀ j < c, ∀ r < k, entryAt wv.1 r j = if r = j then 1#8 else 0#8

/-- Swapping two rows below `k` keeps the rows below `k` there. -/
theorem swap_lt {k c r i : Nat} (hc : c < k) (hr : r < k) (hi : i < k) : Equiv.swap c r i < k := by
  rw [Equiv.swap_apply_def]
  split_ifs <;> assumption

/-- A round leaves the columns before `c` those of the identity, because row `r` is zero there. -/
theorem entryAt_roundMatrix_before {t : Tables} {k : Nat} {w : ByteMatrix} (hw : Square k w) {r c : Nat} (hcr : c ≤ r)
    (hr : r < k) (p : NonzeroByte) (factors : List Byte) {j : Nat} (hj : j < c)
    (hunit : ∀ i < k, entryAt w i j = if i = j then 1#8 else 0#8) {i : Nat} (hi : i < k) :
    entryAt (roundMatrix t factors w r c p) i j = if i = j then 1#8 else 0#8 := by
  have hc : c < k := by omega
  have hrow : t.div (entryAt w r j) p = 0#8 := by
    rw [hunit r hr, if_neg (by omega)]
    exact t.zero_div p
  rw [entryAt_roundMatrix hw hr hc p factors hi (by omega), hrow]
  split_ifs with hic hij hij
  · omega
  · rfl
  · rw [hunit _ (swap_lt hc hr hi), t.mul_zero, BitVec.xor_zero, if_pos]
    rw [hij, Equiv.swap_apply_of_ne_of_ne (by omega) (by omega)]
  · rw [hunit _ (swap_lt hc hr hi), t.mul_zero, BitVec.xor_zero, if_neg]
    rwa [Equiv.swap_apply_eq_iff, Equiv.swap_apply_of_ne_of_ne (by omega) (by omega)]

section Elimination
variable {t : Tables} (ht : tablesBuilt t) {k : Nat} {d : ByteMatrix}
include ht

/-- The elimination starts with `d` and the identity (R174). -/
theorem reduced_start (hd : Square k d) : Reduced t k d 0 (d, identityMatrix k) where
  square_left := hd
  square_right := square_identityMatrix k
  combines x _ hr := Tables.apply_of_unit_row ht hr (fun _ hc => entryAt_identityMatrix hr hc) (t.apply k d x)
  kernel _ h := h
  unit_columns := by omega

/-- A vector that the left matrix takes to zero after a round is one it took to zero before: row `c` is row `r` over the
pivot, and adding multiples of it is undone by adding them again. -/
theorem kernel_of_roundMatrix {w : ByteMatrix} (hw : Square k w) {r c : Nat} (hr : r < k) (hc : c < k) (p : NonzeroByte)
    (factors : List Byte) {x : Nat → Byte} (hx : ∀ i < k, t.apply k (roundMatrix t factors w r c p) x i = 0#8) :
    ∀ i < k, t.apply k w x i = 0#8 := by
  have hpivot : t.apply k w x r = 0#8 := by
    have h := hx c hc
    rw [apply_roundMatrix hw hr hc p ht factors x hc, if_pos rfl] at h
    exact (Tables.eq_zero_of_mul_eq_zero ht h).resolve_left (Tables.inv_ne_zero ht p)
  have hother : ∀ i < k, i ≠ c → t.apply k w x (Equiv.swap c r i) = 0#8 := fun i hi hic => by
    have h := hx i hi
    rwa [apply_roundMatrix hw hr hc p ht factors x hi, if_neg hic, hpivot, t.mul_zero, t.mul_zero, BitVec.xor_zero] at h
  intro i hi
  by_cases hir : i = r
  · exact hir ▸ hpivot
  · have hne : Equiv.swap c r i ≠ c := fun h => hir (by rwa [Equiv.swap_apply_eq_iff, Equiv.swap_apply_left] at h)
    simpa only [Equiv.swap_apply_self] using hother _ (swap_lt hc hr hi) hne

/-- A round makes column `c` of the left matrix that of the identity: the pivot over itself is `0x01`, and every other
entry is added to itself. -/
theorem entryAt_roundMatrix_pivot {w : ByteMatrix} (hw : Square k w) {r c : Nat} (hr : r < k) (hc : c < k)
    {p : NonzeroByte} (hp : entryAt w r c = p.val) {i : Nat} (hi : i < k) :
    entryAt (roundMatrix t (roundFactors t w r c p) w r c p) i c = if i = c then 1#8 else 0#8 := by
  have hone : t.div (entryAt w r c) p = 1 := by rw [hp, Tables.div_self ht]
  rw [entryAt_roundMatrix hw hr hc p _ hi hc, hone]
  split_ifs with hic
  · rfl
  · rw [getD_roundFactors hw hr hc p hic, Tables.mul_one ht, BitVec.xor_self]

/-- A round with a pivot makes one more column that of the identity. -/
theorem reduced_succ {c r : Nat} {p : NonzeroByte} {w v : ByteMatrix} (h : Reduced t k d c (w, v)) (hc : c < k)
    (hp : findPivot w c c (k - c) = some (r, p)) :
    Reduced t k d (c + 1)
      (roundMatrix t (roundFactors t w r c p) w r c p, roundMatrix t (roundFactors t w r c p) v r c p) := by
  obtain ⟨hw, hv, hcomb, hker, hunit⟩ := h
  obtain ⟨hcr, hrk, hpivot⟩ := findPivot_eq_some hp
  have hr : r < k := by omega
  refine ⟨square_roundMatrix hw hr hc p _, square_roundMatrix hv hr hc p _, fun x i hi => ?_,
    fun x hx => hker x (kernel_of_roundMatrix ht hw hr hc p _ hx), fun j hj i hi => ?_⟩
  · rw [apply_roundMatrix hw hr hc p ht _ _ hi, apply_roundMatrix hv hr hc p ht _ _ hi, hcomb x r hr,
      hcomb x _ (swap_lt hc hr hi)]
  · rcases Nat.lt_succ_iff_lt_or_eq.mp hj with hjc | rfl
    · exact entryAt_roundMatrix_before hw hcr hr p _ hjc (hunit j hjc) hi
    · exact entryAt_roundMatrix_pivot ht hw hr hc hpivot hi

end Elimination

/-! ### What the elimination answers -/

/-- The standard basis vector of position `c`. -/
def basisVector (c j : Nat) : Byte := if j = c then 1#8 else 0#8

/-- Column `c` above the diagonal, as a vector. -/
def aboveDiagonal (w : ByteMatrix) (c j : Nat) : Byte := if j < c then entryAt w j c else 0#8

/-- The vector that a round with no pivot in column `c` shows in the kernel: `0x01` at `c`, column `c` above it. -/
def kernelVector (w : ByteMatrix) (c : Nat) : Nat → Byte := fun j => basisVector c j ^^^ aboveDiagonal w c j

theorem kernelVector_self (w : ByteMatrix) (c : Nat) : kernelVector w c c = 1#8 := by
  simp [kernelVector, basisVector, aboveDiagonal]

section Elimination
variable {t : Tables} (ht : tablesBuilt t) {k : Nat} {d : ByteMatrix}
include ht

theorem Tables.apply_xor (w : ByteMatrix) (x y : Nat → Byte) (r : Nat) :
    t.apply k w (fun c => x c ^^^ y c) r = t.apply k w x r ^^^ t.apply k w y r := by
  simp only [Tables.apply, Tables.mul_xor ht, xorSum_xor]

/-- The standard basis vector picks a column. -/
theorem Tables.apply_basisVector (w : ByteMatrix) {c : Nat} (hc : c < k) (r : Nat) :
    t.apply k w (basisVector c) r = entryAt w r c := by
  rw [Tables.apply, xorSum_eq_single hc fun j _ hjc => by rw [basisVector, if_neg hjc, t.mul_zero], basisVector,
    if_pos rfl]
  exact Tables.mul_one ht _

/-- When the columns before `c` are those of the identity and column `c` is zero from the diagonal on, column `c` is the
combination of the columns before it that its own entries give. -/
theorem apply_aboveDiagonal {w : ByteMatrix} {c : Nat}
    (hunit : ∀ j < c, ∀ r < k, entryAt w r j = if r = j then 1#8 else 0#8)
    (hcol : ∀ r, c ≤ r → r < k → entryAt w r c = 0#8) {r : Nat} (hr : r < k) :
    t.apply k w (aboveDiagonal w c) r = entryAt w r c := by
  have hterm : ∀ j < k, j ≠ r → t.mul (entryAt w r j) (aboveDiagonal w c j) = 0#8 := by
    intro j _ hjr
    by_cases hjc : j < c
    · rw [hunit j hjc r hr, if_neg hjr.symm, t.zero_mul]
    · rw [aboveDiagonal, if_neg hjc, t.mul_zero]
  rw [Tables.apply, xorSum_eq_single hr hterm]
  by_cases hrc : r < c
  · rw [hunit r hrc r hr, if_pos rfl, aboveDiagonal, if_pos hrc]
    exact Tables.one_mul ht _
  · rw [aboveDiagonal, if_neg hrc, t.mul_zero, hcol r (by omega) hr]

/-- With no pivot in column `c`, `d` takes the kernel vector of that column to zero. -/
theorem apply_kernelVector {c : Nat} {w v : ByteMatrix} (h : Reduced t k d c (w, v)) (hc : c < k)
    (hp : findPivot w c c (k - c) = none) : ∀ r < k, t.apply k d (kernelVector w c) r = 0#8 := by
  obtain ⟨-, -, -, hker, hunit⟩ := h
  have hcol : ∀ r, c ≤ r → r < k → entryAt w r c = 0#8 := fun r hcr hr => findPivot_eq_none hp r hcr (by omega)
  refine hker _ fun r hr => ?_
  calc t.apply k w (kernelVector w c) r
      = t.apply k w (basisVector c) r ^^^ t.apply k w (aboveDiagonal w c) r :=
        Tables.apply_xor ht w (basisVector c) (aboveDiagonal w c) r
    _ = entryAt w r c ^^^ entryAt w r c := by
        rw [Tables.apply_basisVector ht w hc, apply_aboveDiagonal ht hunit hcol hr]
    _ = 0#8 := BitVec.xor_self

/-- The matrix `d` takes a vector to zero that is not zero. -/
def Degenerate (t : Tables) (k : Nat) (d : ByteMatrix) : Prop :=
  ∃ x : Nat → Byte, (∃ c < k, x c ≠ 0#8) ∧ ∀ r < k, t.apply k d x r = 0#8

/-- `n` rounds of the elimination succeed, or there is a vector that shows why not. -/
theorem rounds_cases (hd : Square k d) {n : Nat} (hn : n ≤ k) :
    (∃ wv, (List.range n).foldlM (eliminateColumn t k) (d, identityMatrix k) = some wv ∧ Reduced t k d n wv) ∨
      ((List.range n).foldlM (eliminateColumn t k) (d, identityMatrix k) = none ∧ Degenerate t k d) := by
  induction n with
  | zero => exact .inl ⟨_, rfl, reduced_start ht hd⟩
  | succ n ih =>
    rw [List.range_succ, List.foldlM_append]
    rcases ih (by omega) with ⟨⟨w, v⟩, hfold, hred⟩ | ⟨hfold, hdeg⟩
    · rw [hfold]
      cases hp : findPivot w n n (k - n) with
      | none =>
        have hround := eliminateColumn_of_no_pivot (t := t) (v := v) hp
        refine .inr ⟨by simp [hround], kernelVector w n, ⟨n, hn, ?_⟩, apply_kernelVector ht hred hn hp⟩
        rw [kernelVector_self]
        decide
      | some rp =>
        have hround := eliminateColumn_of_pivot (t := t) (v := v) (r := rp.1) (p := rp.2) hp
        exact .inl ⟨_, by simp [hround], reduced_succ ht hred hn hp⟩
    · exact .inr ⟨by rw [hfold]; rfl, hdeg⟩

/-- Everything `invert` can answer for a square matrix (R174): a matrix that undoes it, or none when it takes a vector
to zero that is not zero. -/
theorem invert_cases (hd : Square k d) :
    (∃ v, invert t k d = some v ∧ ∀ x, ∀ r < k, t.apply k v (t.apply k d x) r = x r) ∨
      (invert t k d = none ∧ Degenerate t k d) := by
  rcases rounds_cases ht hd le_rfl with ⟨wv, hfold, hred⟩ | ⟨hfold, hdeg⟩
  · refine .inl ⟨wv.2, by rw [invert, hfold]; rfl, fun x r hr => ?_⟩
    rw [hred.combines x r hr]
    exact Tables.apply_of_unit_row ht hr (fun c hc => hred.unit_columns c hc r hr) x
  · exact .inr ⟨by rw [invert, hfold]; rfl, hdeg⟩

end Elimination

end Sys2Proof.Machine
end

section
/-! Proofs: `k` distinct rows of the generator matrix make an invertible matrix (R131, R134), and DECODE of a genuine
stripe restores the data (R180). -/

namespace Sys2Proof.Machine

/-! ### Rows of the generator matrix -/

/-- A matrix whose rows are `k` distinct rows of the generator matrix has an inverse, which the elimination finds
(R131, R174). -/
theorem exists_inverse_of_generator_rows {t : Tables} (ht : tablesBuilt t) {n k : Nat} (h : legalDims n k)
    {d : ByteMatrix} (hd : Square k d) {row : Nat → Nat} (hinj : Set.InjOn row ↑(Finset.range k))
    (hlt : ∀ i < k, row i < n)
    (hrow : ∀ i < k, ∀ c < k, entryAt d i c = entryAt (generatorMatrix t n k h.2.2) (row i) c) :
    ∃ v, invert t k d = some v ∧ ∀ x, ∀ r < k, t.apply k v (t.apply k d x) r = x r := by
  rcases invert_cases ht hd with hinv | ⟨-, x, ⟨c, hc, hne⟩, hx⟩
  · exact hinv
  · refine absurd (eq_zero_of_generator_rows ht h (rs := (Finset.range k).image row) ?_ ?_ ?_ c hc) hne
    · rw [Finset.card_image_of_injOn hinj, Finset.card_range]
    · simpa using hlt
    · simp only [Finset.mem_image, Finset.mem_range, forall_exists_index, and_imp, forall_apply_eq_imp_iff₂]
      intro i hi
      exact (xorSum_congr fun c hc => by rw [hrow i hi c hc]).trans (hx i hi)

/-- Settles O19: the listed rows are distinct, and no vector but zero vanishes on `k` of them. -/
theorem anyKRowsAreInvertible : Obligations.AnyKRowsAreInvertible := by
  intro t n k h ht rs hlen hnodup hlt
  have hrs : ∀ i, (hi : i < k) → rs.getD i 0 = rs[i] := fun _ _ => List.getD_eq_getElem _ _ _
  have hsquare : Square k (rs.map fun r => (generatorMatrix t n k h.2.2).getD r []) := by
    refine ⟨by rw [List.length_map, hlen], fun row hrow => ?_⟩
    obtain ⟨r, hr, rfl⟩ := List.mem_map.mp hrow
    rw [List.getD_eq_getElem _ _ (by rw [length_generatorMatrix]; exact hlt r hr)]
    exact length_row_generatorMatrix (List.getElem_mem _)
  have hinj : Set.InjOn (fun i => rs.getD i 0) ↑(Finset.range k) := by
    intro i hi j hj hij
    rw [Finset.mem_coe, Finset.mem_range] at hi hj
    simp only [hrs i hi, hrs j hj] at hij
    exact hnodup.getElem_inj_iff.mp hij
  obtain ⟨v, hv, -⟩ := exists_inverse_of_generator_rows ht h hsquare hinj
    (fun i hi => hrs i hi ▸ hlt _ (List.getElem_mem _)) fun i hi c _ => by simp [entryAt, List.getD, hlen, hi]
  rw [hv, Option.isSome_some]

/-! ### The decode matrix -/

/-- The row of the generator matrix that stands at position `p` of the decode matrix: `FIDX[t]` for the position
`ERAS[t]`, `p` for a surviving one (R173). -/
def decodeRowIndex (s : State) (e p : Nat) : Nat :=
  match erasedSlot s e p with
  | none => p
  | some t => s.entry .fidx t

theorem square_decodeMatrix (s : State) (k e : Nat) : Square k (decodeMatrix s k e) := by
  refine ⟨length_decodeMatrix s k e, fun row hrow => ?_⟩
  simp only [decodeMatrix, List.mem_map] at hrow
  obtain ⟨p, -, rfl⟩ := hrow
  exact length_decodeRow s k e p

/-- A row of the identity stands at a surviving position (R173). -/
theorem entryAt_decodeMatrix_surviving {s : State} {k e p c : Nat} (h : ¬ isErased s e p) (hp : p < k) (hc : c < k) :
    entryAt (decodeMatrix s k e) p c = if p = c then 1#8 else 0#8 := by
  rw [decodeMatrix, entryAt_map_range _ _ hp, decodeRow, erasedSlot_of_surviving h]
  exact getD_unitRow hc

theorem decodeRowIndex_surviving {s : State} {e p : Nat} (h : ¬ isErased s e p) : decodeRowIndex s e p = p := by
  rw [decodeRowIndex, erasedSlot_of_surviving h]

section Rows
variable {s : State} {e : Nat} (hdistinct : ∀ t < e, ∀ u < t, s.entry .eras t ≠ s.entry .eras u)
include hdistinct

/-- Row `FIDX[t]` of the matrix stands at position `ERAS[t]` (R173). -/
theorem entryAt_decodeMatrix_erased {k t c : Nat} (ht : t < e) (hk : s.entry .eras t < k) (hc : c < k) :
    entryAt (decodeMatrix s k e) (s.entry .eras t) c = entryAt s.gen (s.entry .fidx t) c := by
  rw [decodeMatrix, entryAt_map_range _ _ hk, decodeRow, erasedSlot_of_erased hdistinct ht rfl]
  exact getD_map_range _ hc

theorem decodeRowIndex_erased {t : Nat} (ht : t < e) :
    decodeRowIndex s e (s.entry .eras t) = s.entry .fidx t := by
  rw [decodeRowIndex, erasedSlot_of_erased hdistinct ht rfl]

end Rows

section Legal
variable {s : State} {k e a : Nat} (h : decodeIndicesLegal s k e a)
include h

/-- No row of the generator matrix stands in the decode matrix twice: `FIDX` lists distinct parity rows. -/
theorem decodeRowIndex_injOn : Set.InjOn (decodeRowIndex s e) ↑(Finset.range k) := by
  obtain ⟨-, -, -, -, -, hea, -, hdistinct, hparity, hfdistinct⟩ := h
  intro p hp q hq hpq
  rw [Finset.mem_coe, Finset.mem_range] at hp hq
  by_cases hpe : isErased s e p <;> by_cases hqe : isErased s e q
  · obtain ⟨t, ht, rfl⟩ := hpe
    obtain ⟨u, hu, rfl⟩ := hqe
    rw [decodeRowIndex_erased hdistinct ht, decodeRowIndex_erased hdistinct hu] at hpq
    rcases Nat.lt_trichotomy t u with hlt | rfl | hlt
    · exact absurd hpq.symm (hfdistinct u (by omega) t hlt)
    · rfl
    · exact absurd hpq (hfdistinct t (by omega) u hlt)
  · obtain ⟨t, ht, rfl⟩ := hpe
    rw [decodeRowIndex_erased hdistinct ht, decodeRowIndex_surviving hqe] at hpq
    have := hparity t (by omega)
    omega
  · obtain ⟨u, hu, rfl⟩ := hqe
    rw [decodeRowIndex_erased hdistinct hu, decodeRowIndex_surviving hpe] at hpq
    have := hparity u (by omega)
    omega
  · rwa [decodeRowIndex_surviving hpe, decodeRowIndex_surviving hqe] at hpq

theorem decodeRowIndex_lt {p : Nat} (hp : p < k) : decodeRowIndex s e p < s.dimN.toNat := by
  obtain ⟨-, -, -, -, hak, hea, -, hdistinct, hparity, -⟩ := h
  by_cases hpe : isErased s e p
  · obtain ⟨t, ht, rfl⟩ := hpe
    rw [decodeRowIndex_erased hdistinct ht]
    exact (hparity t (by omega)).2
  · rw [decodeRowIndex_surviving hpe]
    omega

/-- With a built matrix and legal indices the rows of the decode matrix are distinct rows of the generator matrix, so
that the elimination finds an inverse (R131, R173, R205). -/
theorem exists_inverse_of_decodeMatrix (hs : Invariant s) :
    ∃ v, invert s.tables k (decodeMatrix s k e) = some v ∧
      ∀ x, ∀ r < k, s.tables.apply k v (s.tables.apply k (decodeMatrix s k e) x) r = x r := by
  have hinj := decodeRowIndex_injOn h
  have hlt := fun p hp => decodeRowIndex_lt h (p := p) hp
  obtain ⟨htables, hmatrix, -, -⟩ := hs
  obtain ⟨htv, hmv, rfl, -, -, -, -, hdistinct, -⟩ := h
  obtain ⟨-, hlegal, hgen⟩ := hmatrix hmv
  have ⟨_, hkn, hn⟩ := hlegal
  refine exists_inverse_of_generator_rows (htables htv) hlegal (square_decodeMatrix _ _ _) hinj hlt fun p hp c hc => ?_
  by_cases hpe : isErased s e p
  · obtain ⟨t, ht, rfl⟩ := hpe
    rw [decodeRowIndex_erased hdistinct ht, entryAt_decodeMatrix_erased hdistinct ht hp hc, hgen]
  · rw [decodeRowIndex_surviving hpe, entryAt_decodeMatrix_surviving hpe hp hc,
      entryAt_generatorMatrix_identity _ hn (hp.trans_le hkn) hp hc]

end Legal

/-! ### The memory DECODE leaves -/

/-- Byte `x` of the placeholder of `ERAS[t]` is the byte recovered for it (R175). -/
theorem read_storeRecovered_placeholder {s : State} {v : ByteMatrix} {k e a t x : Nat} (hwf : s.mem.wf)
    (h : decodeReady s k e a) (ht : t < e) (hx : x < s.blockSize) :
    (storeBlocks s.mem (recoveredBlocks s v k e)).read (s.entry .dptr (s.entry .eras t) + x) =
      recoveredByte s v k e (s.entry .eras t) x := by
  have hmem : (s.entry .dptr (s.entry .eras t), recoveredBlock s v k e (s.entry .eras t)) ∈ recoveredBlocks s v k e :=
    List.mem_map_of_mem (mem_entries.mpr ⟨t, ht, rfl⟩)
  have hlen : x < (recoveredBlock s v k e (s.entry .eras t)).length := by simpa [recoveredBlock] using hx
  rw [read_storeBlocks hwf (recoveredBlocks_inside h) (recoveredBlocks_apart h) hmem hlen]
  simp [recoveredBlock]

/-- A surviving data buffer keeps its bytes (R58, R59). -/
theorem read_storeRecovered_surviving {s : State} {v : ByteMatrix} {k e a c x : Nat} (hwf : s.mem.wf)
    (h : decodeReady s k e a) (hc : c < k) (hce : ¬ isErased s e c) (hx : x < s.blockSize) :
    (storeBlocks s.mem (recoveredBlocks s v k e)).read (s.entry .dptr c + x) = s.mem.read (s.entry .dptr c + x) := by
  have ⟨_, _, _, _, hapart, _⟩ := h
  exact read_storeRecovered_of_outside hwf h fun t ht =>
    not_inBuffer_of_rangesApart (hapart t ht c hc fun hct => hce ⟨t, ht, hct.symm⟩) hx

/-- In a genuine stripe the byte read for a position is the decode matrix applied to the original data (R152, R173). -/
theorem read_sourcePtr_of_stripe {s : State} {k e x : Nat} {d : Nat → Byte} (ht : tablesBuilt s.tables)
    (hrange : ∀ t < e, s.entry .eras t < k) (hdistinct : ∀ t < e, ∀ u < t, s.entry .eras t ≠ s.entry .eras u)
    (hdata : ∀ c < k, ¬ isErased s e c → s.mem.read (s.entry .dptr c + x) = d c)
    (hparity : ∀ t < e, s.mem.read (s.entry .fptr t + x) = s.tables.apply k s.gen d (s.entry .fidx t)) {c : Nat}
    (hc : c < k) : s.mem.read (sourcePtr s e c + x) = s.tables.apply k (decodeMatrix s k e) d c := by
  by_cases hce : isErased s e c
  · obtain ⟨t, hte, rfl⟩ := hce
    rw [sourcePtr, erasedSlot_of_erased hdistinct hte rfl]
    exact (hparity t hte).trans
      (xorSum_congr fun j hj => by rw [entryAt_decodeMatrix_erased hdistinct hte (hrange t hte) hj])
  · rw [sourcePtr, erasedSlot_of_surviving hce,
      Tables.apply_of_unit_row ht hc fun j hj => entryAt_decodeMatrix_surviving hce hc hj]
    exact hdata c hc hce

/-- Settles O33: the bytes read are the decode matrix applied to the data, and the inverse the elimination finds undoes
it. -/
theorem decodeRestoresTheOriginalData : Obligations.DecodeRestoresTheOriginalData := by
  intro k e a s d hs hready hdata hparity
  have ⟨htables, _⟩ := hs
  have ⟨_, hindices, _⟩ := hready
  have ⟨htv, _, _, _, _, _, hrange, hdistinct, _⟩ := hindices
  obtain ⟨v, hv, hinv⟩ := exists_inverse_of_decodeMatrix hindices hs
  refine ⟨decodedState s v k e, (execDecode_of_ready hready).trans (by rw [hv]), rfl, fun c hc x hx => ?_⟩
  by_cases hce : isErased s e c
  · obtain ⟨t, ht, rfl⟩ := hce
    have hsource : ∀ j < k, s.mem.read (sourcePtr s e j + x) =
        s.tables.apply k (decodeMatrix s k e) (fun j => d j x) j := fun j hj =>
      read_sourcePtr_of_stripe (htables htv) hrange hdistinct (fun i hi hie => hdata i hi hie x hx)
        (fun i hi => hparity i hi x hx) hj
    calc (decodedState s v k e).mem.read (s.entry .dptr (s.entry .eras t) + x)
        = s.tables.apply k v (fun j => s.mem.read (sourcePtr s e j + x)) (s.entry .eras t) :=
          read_storeRecovered_placeholder hs.mem_wf hready ht hx
      _ = s.tables.apply k v (s.tables.apply k (decodeMatrix s k e) fun j => d j x) (s.entry .eras t) :=
          Tables.apply_congr hsource _
      _ = d (s.entry .eras t) x := hinv _ _ hc
  · exact (read_storeRecovered_surviving hs.mem_wf hready hc hce hx).trans (hdata c hc hce x hx)

end Sys2Proof.Machine
end

section
/-! Proofs: the encoder (42_encode.md): the checks of ENCODE in their order (R151), the memory it leaves (R152), the
ENCODE that stores no byte (R157 a, b), and the linearity of parity (R157 g). -/

namespace Sys2Proof.Machine

/-! ### The checks -/

/-- A check that passes is left behind (R212). -/
theorem guarded_of_head_passes {c : Bool × Err} (h : c.1 = false) (rest : List (Bool × Err)) (s : State)
    (body : Result) : guarded (c :: rest) s body = guarded rest s body :=
  (guarded_cons c.1 c.2 rest s body).trans (if_neg (Bool.eq_false_iff.mp h))

/-- The first check that fails gives the command's error (R212). -/
theorem guarded_of_head_fails {c : Bool × Err} (h : c.1 = true) (rest : List (Bool × Err)) (s : State)
    (body : Result) : guarded (c :: rest) s body = .next (s.setErr c.2) :=
  (guarded_cons c.1 c.2 rest s body).trans (if_pos h)

/-- The check of R207 passes with valid tables. -/
theorem needsTables_passes {s : State} (h : s.tv = true) : (needsTables s).1 = false := congrArg not h

/-- The check of R151 fails with no matrix and with a matrix of other dimensions (R208). -/
theorem needsMatrixKM_fails_iff (s : State) (k m : Nat) :
    (needsMatrixKM s k m).1 = true ↔ s.mv = false ∨ k ≠ s.dimK.toNat ∨ m + s.dimK.toNat ≠ s.dimN.toNat := by
  simp [needsMatrixKM, or_assoc]

/-- After INIT an ENCODE that is not of the matrix's dimensions raises `NOMATRIX` (R151, R208). -/
theorem execEncode_of_other_dims {s : State} {k m : Nat} (htv : s.tv = true)
    (h : s.mv = false ∨ k ≠ s.dimK.toNat ∨ m + s.dimK.toNat ≠ s.dimN.toNat) :
    execEncode k m s = .next (s.setErr .noMatrix) :=
  (guarded_of_head_passes (needsTables_passes htv) _ s _).trans
    (guarded_of_head_fails ((needsMatrixKM_fails_iff s k m).mpr h) _ s _)

/-- An ENCODE of the matrix's dimensions raises `BADBUF` when a data or a parity buffer leaves `MEM` (R151, R210). -/
theorem execEncode_of_buffer_outside {s : State} {k m : Nat} (htv : s.tv = true) (hmv : s.mv = true)
    (hk : k = s.dimK.toNat) (hm : m + s.dimK.toNat = s.dimN.toNat)
    (h : ¬ buffersInside s.blockSize (dataPtrs s k) ∨ ¬ buffersInside s.blockSize (parityPtrs s m)) :
    execEncode k m s = .next (s.setErr .badBuf) := by
  have hdims : (needsMatrixKM s k m).1 = false := by
    rw [Bool.eq_false_iff, ne_eq, needsMatrixKM_fails_iff]
    simp [hmv, hk, hm]
  rw [execEncode, guarded_of_head_passes (needsTables_passes htv), guarded_of_head_passes hdims]
  by_cases hdata : buffersInside s.blockSize (dataPtrs s k)
  · have hparity := h.resolve_left (not_not.mpr hdata)
    rw [guarded_of_head_passes (decide_eq_false (not_not.mpr hdata)), guarded_of_head_fails (decide_eq_true hparity)]
  · rw [guarded_of_head_fails (decide_eq_true hdata)]

/-- A buffer of an operand table that leaves `MEM` fails the bounds check (R57). -/
theorem not_buffersInside_entries {s : State} {t : OperandTable} {n size : Nat}
    (h : ∃ i < n, s.entry t i + size > Config.memSize) : ¬ buffersInside size (s.entries t n) := by
  intro hin
  obtain ⟨i, hi, hout⟩ := h
  exact Nat.not_le.mpr hout (buffersInside_entries.mp hin i hi)

/-- Settles O22: the check of the dimensions stands before the checks of the buffers, and both of those raise `BADBUF`. -/
theorem encodeChecksInOrder : Obligations.EncodeChecksInOrder := by
  intro k m s htv
  refine ⟨execEncode_of_other_dims htv, fun hmv hk hm hout => ?_⟩
  exact execEncode_of_buffer_outside htv hmv hk hm
    (hout.imp not_buffersInside_entries not_buffersInside_entries)

/-! ### The memory ENCODE leaves -/

/-- Byte `x` of parity buffer `i` is the sum of R152. -/
theorem read_storeParity_buffer {s : State} {k m i x : Nat} (hwf : s.mem.wf) (h : encodeReady s k m) (hi : i < m)
    (hx : x < s.blockSize) :
    (storeBlocks s.mem (parityBlocks s k m)).read (s.entry .fptr i + x) = parityByte s k i x := by
  have hmem : (s.entry .fptr i, parityBlock s k i) ∈ parityBlocks s k m :=
    List.mem_map_of_mem (List.mem_range.mpr hi)
  have hlen : x < (parityBlock s k i).length := by simpa [parityBlock] using hx
  rw [read_storeBlocks hwf (parityBlocks_inside h) (parityBlocks_apart h) hmem hlen]
  simp [parityBlock]

/-- Settles O21: a ready ENCODE stores its parity blocks, which share no byte, and nothing outside their buffers. -/
theorem encodeWritesTheParitySums : Obligations.EncodeWritesTheParitySums := by
  intro k m s hwf h
  exact ⟨storeBlocks s.mem (parityBlocks s k m), execEncode_of_ready h,
    fun i hi x hx => read_storeParity_buffer hwf h hi hx, fun a ha => read_storeParity_of_outside hwf h ha⟩

/-! ### The ENCODE that stores no byte -/

/-- Blocks without a byte store nothing. -/
theorem storeBlocks_of_empty {m : Memory} {bs : List (Nat × List Byte)} (h : ∀ b ∈ bs, b.2 = []) :
    storeBlocks m bs = m := by
  induction bs with
  | nil => rfl
  | cons b bs ih =>
    obtain ⟨base, vs⟩ := b
    obtain rfl : vs = [] := h (base, vs) List.mem_cons_self
    exact ih fun c hc => h c (List.mem_cons_of_mem _ hc)

/-- With no parity block, or with `BLKSZ = 0`, no parity block has a byte (R157 a, b). -/
theorem eq_nil_of_mem_parityBlocks {s : State} {k m : Nat} (h : m = 0 ∨ s.blockSize = 0) {b : Nat × List Byte}
    (hb : b ∈ parityBlocks s k m) : b.2 = [] := by
  obtain ⟨i, hi, -, hlen⟩ := exists_of_mem_parityBlocks hb
  rcases h with rfl | h0
  · exact absurd hi (Nat.not_lt_zero i)
  · exact List.eq_nil_of_length_eq_zero (hlen.trans h0)

/-- An ENCODE of the matrix's dimensions with no parity block is ready when its data buffers lie inside `MEM`
(R157 a). -/
theorem encodeReady_of_no_parity {s : State} {k : Nat} (htv : s.tv = true) (hmv : s.mv = true)
    (hk : k = s.dimK.toNat) (hn : 0 + k = s.dimN.toNat)
    (hdata : ∀ c < k, s.entry .dptr c + s.blockSize ≤ Config.memSize) : encodeReady s k 0 :=
  ⟨htv, hmv, hk, hn, hdata, nofun, nofun, nofun⟩

/-- An ENCODE of the matrix's dimensions with `BLKSZ = 0` is ready: buffers of length zero lie inside `MEM` and share no
byte (R157 b). -/
theorem encodeReady_of_blockSize_zero {s : State} {k m : Nat} (htv : s.tv = true) (hmv : s.mv = true)
    (hk : k = s.dimK.toNat) (hn : m + k = s.dimN.toNat) (h0 : s.blockSize = 0) : encodeReady s k m := by
  have hin : ∀ t i, s.entry t i + s.blockSize ≤ Config.memSize := fun t i => by
    rw [h0]
    exact (entry_lt s t i).le
  exact ⟨htv, hmv, hk, hn, fun c _ => hin .dptr c, fun i _ => hin .fptr i, fun _ _ _ _ => .inl h0, fun _ _ _ _ => .inl h0⟩

/-- A ready ENCODE without a byte to store changes `ERR` only. -/
theorem execEncode_of_nothing_to_store {s : State} {k m : Nat} (h : encodeReady s k m)
    (h0 : m = 0 ∨ s.blockSize = 0) : execEncode k m s = .next (s.setErr .ok) := by
  rw [execEncode_of_ready h, storeBlocks_of_empty fun _ => eq_nil_of_mem_parityBlocks h0]
  rfl

/-- Settles O24: in both cases the command is ready and its parity blocks have no byte. -/
theorem emptyEncodeOnlySetsErr : Obligations.EmptyEncodeOnlySetsErr := by
  rintro k m s htv hmv hk hm (⟨rfl, hdata⟩ | hblksz)
  · exact execEncode_of_nothing_to_store (encodeReady_of_no_parity htv hmv hk (hk ▸ hm) hdata) (.inl rfl)
  · have h0 : s.blockSize = 0 := congrArg BitVec.toNat hblksz
    exact execEncode_of_nothing_to_store (encodeReady_of_blockSize_zero htv hmv hk (hk ▸ hm) h0) (.inr h0)

/-! ### Parity is linear -/

theorem Tables.mul_left_comm {t : Tables} (ht : tablesBuilt t) (a b c : Byte) :
    t.mul a (t.mul b c) = t.mul b (t.mul a c) := by
  rw [← mul_assoc ht, mul_comm ht a b, mul_assoc ht]

/-- Settles O25: `mul` distributes over the sum of R152 and commutes with the scaling, term by term. -/
theorem parityIsLinear : Obligations.ParityIsLinear := by
  intro t ht coef d d' y k
  constructor
  · simp only [Tables.mul_xor ht, xorSum_xor]
  · calc xorSum (fun c => t.mul (coef c) (t.mul y (d c))) k
        = xorSum (fun c => t.mul y (t.mul (coef c) (d c))) k := xorSum_congr fun c _ => Tables.mul_left_comm ht _ _ _
      _ = t.mul y (xorSum (fun c => t.mul (coef c) (d c)) k) := (Tables.mul_xorSum ht y _ k).symm

end Sys2Proof.Machine
end

section
/-! Proofs: the elimination gives the two-sided inverse, and fails only for a matrix without a left one (R174). Under
valid tables the bytes are a field, and over a field a left inverse of a square matrix is a right inverse. -/

namespace Sys2Proof.Machine

/-- The product of the `k` by `k` matrices with entries `f` and `g` is the identity. -/
def ProductIsIdentity (t : Tables) (k : Nat) (f g : Nat → Nat → Byte) : Prop :=
  ∀ r < k, ∀ c < k, xorSum (fun j => t.mul (f r j) (g j c)) k = if r = c then 1#8 else 0#8

/-- The matrix with entries `f`, read in the field that `φ` embeds the bytes in. -/
def imageMatrix {F : Type} (φ : Byte → F) (k : Nat) (f : Nat → Nat → Byte) : Matrix (Fin k) (Fin k) F :=
  Matrix.of fun i j => φ (f i j)

section Image
variable {t : Tables} (ht : tablesBuilt t) {F : Type} [Field F] {φ : Byte → F} (hφ : FieldView t φ)
include hφ

theorem FieldView.map_xorSum_mul (f g : Nat → Byte) (k : Nat) :
    φ (xorSum (fun j => t.mul (f j) (g j)) k) = ∑ j : Fin k, φ (f j) * φ (g j) := by
  simp only [hφ.map_xorSum, hφ.map_mul, Finset.sum_range]

theorem imageMatrix_mul_apply {k : Nat} (f g : Nat → Nat → Byte) (r c : Fin k) :
    (imageMatrix φ k f * imageMatrix φ k g) r c = φ (xorSum (fun j => t.mul (f r j) (g j c)) k) :=
  (hφ.map_xorSum_mul (f r) (fun j => g j c) k).symm

include ht

theorem imageMatrix_mul_eq_one_iff {k : Nat} {f g : Nat → Nat → Byte} :
    imageMatrix φ k f * imageMatrix φ k g = 1 ↔ ProductIsIdentity t k f g := by
  have hone : ∀ r c : Fin k, (1 : Matrix (Fin k) (Fin k) F) r c = φ (if r.val = c.val then 1#8 else 0#8) := fun r c => by
    rw [Matrix.one_apply, apply_ite φ, hφ.map_one ht, hφ.map_zero]
    exact if_congr Fin.ext_iff rfl rfl
  simp only [← Matrix.ext_iff, imageMatrix_mul_apply hφ, hone, hφ.injective.eq_iff]
  exact ⟨fun h r hr c hc => h ⟨r, hr⟩ ⟨c, hc⟩, fun h r c => h r r.isLt c c.isLt⟩

end Image

section Products
variable {t : Tables} (ht : tablesBuilt t) {k : Nat}
include ht

/-- A left inverse is a right inverse. -/
theorem ProductIsIdentity.symm {f g : Nat → Nat → Byte} (h : ProductIsIdentity t k f g) : ProductIsIdentity t k g f := by
  obtain ⟨F, _, φ, hφ⟩ := exists_fieldView ht
  rw [← imageMatrix_mul_eq_one_iff ht hφ] at h ⊢
  exact mul_eq_one_comm.mp h

/-- A matrix with a left inverse takes no vector but zero to zero. -/
theorem ProductIsIdentity.not_degenerate {f : Nat → Nat → Byte} {d : ByteMatrix}
    (h : ProductIsIdentity t k f (entryAt d)) : ¬ Degenerate t k d := by
  rintro ⟨x, ⟨c, hc, hne⟩, hx⟩
  obtain ⟨F, _, φ, hφ⟩ := exists_fieldView ht
  rw [← imageMatrix_mul_eq_one_iff ht hφ] at h
  have hzero : (imageMatrix φ k (entryAt d)).mulVec (fun j => φ (x j)) = 0 := funext fun r =>
    (hφ.map_xorSum_mul (entryAt d r) x k).symm.trans ((congrArg φ (hx r r.isLt)).trans hφ.map_zero)
  have hvec : (fun j : Fin k => φ (x j)) = 0 := by
    rw [← Matrix.one_mulVec fun j : Fin k => φ (x j), ← h, ← Matrix.mulVec_mulVec, hzero, Matrix.mulVec_zero]
  exact hne (hφ.map_eq_zero_iff.mp (congrFun hvec ⟨c, hc⟩))

/-- A matrix that undoes `d` on every vector is a left inverse of `d`: it undoes `d` on the standard basis. -/
theorem productIsIdentity_of_undoes {d v : ByteMatrix}
    (h : ∀ x, ∀ r < k, t.apply k v (t.apply k d x) r = x r) : ProductIsIdentity t k (entryAt v) (entryAt d) := by
  intro r hr c hc
  calc t.apply k v (fun j => entryAt d j c) r
      = t.apply k v (t.apply k d (basisVector c)) r :=
        Tables.apply_congr (fun j _ => (Tables.apply_basisVector ht d hc j).symm) r
    _ = basisVector c r := h _ r hr

end Products

/-- Settles O29: the matrix the elimination returns undoes `d`, so it is a left and then a right inverse; with none, `d`
takes a vector to zero that a left inverse would bring back. -/
theorem invertGivesTheInverse : Obligations.InvertGivesTheInverse := by
  intro t k d ht hlen hrows
  rcases invert_cases ht ⟨hlen, hrows⟩ with ⟨w, hw, hundo⟩ | ⟨hnone, hdeg⟩
  · have hleft := productIsIdentity_of_undoes ht hundo
    refine ⟨fun v hv r hr c hc => ?_, fun hnone => ?_⟩
    · obtain rfl : w = v := Option.some.inj (hw.symm.trans hv)
      exact ⟨hleft r hr c hc, hleft.symm ht r hr c hc⟩
    · cases hw.symm.trans hnone
  · refine ⟨fun v hv => ?_, fun _ ⟨f, hf⟩ => ProductIsIdentity.not_degenerate ht hf hdeg⟩
    cases hnone.symm.trans hv

end Sys2Proof.Machine
end

section
/-! Proofs: the command DECODE (43_decode.md): its checks in their order (R171), the decode matrix and the sources of the
positions (R172, R173), the bytes it writes (R175), and what it does not depend on (R172, R177). -/

namespace Sys2Proof.Machine

/-! ### The checks -/

/-- One check at a time, by what its failing says. -/
theorem guarded_cons_of_iff {c : Bool × Err} {p : Prop} [Decidable p] (h : c.1 = true ↔ p) (rest : List (Bool × Err))
    (s : State) (body : Result) :
    guarded (c :: rest) s body = if p then .next (s.setErr c.2) else guarded rest s body :=
  (guarded_cons c.1 c.2 rest s body).trans (if_congr h rfl rfl)

/-- Two checks with one error are one check. -/
theorem guarded_pair_of_iff {b b' : Bool} {e : Err} {p q : Prop} [Decidable p] [Decidable q] (h : b = true ↔ p)
    (h' : b' = true ↔ q) (s : State) (body : Result) :
    guarded [(b, e), (b', e)] s body = if p ∨ q then .next (s.setErr e) else body := by
  rw [guarded_cons_of_iff h, guarded_cons_of_iff h', guarded_nil]
  by_cases hp : p
  · rw [if_pos hp, if_pos (.inl hp)]
  · rw [if_neg hp, if_congr (or_iff_right hp) rfl rfl]

theorem needsTables_fails_iff (s : State) : (needsTables s).1 = true ↔ s.tv = false := by simp [needsTables]

/-- Check 2 of R171 fails with no matrix and with a matrix for another `k`. -/
theorem needsMatrixK_fails_iff (s : State) (k : Nat) :
    (needsMatrixK s k).1 = true ↔ s.mv = false ∨ k ≠ s.dimK.toNat := by simp [needsMatrixK]

section Entries
variable (s : State) (t : OperandTable) (n : Nat)

/-- A range check of an operand table's first `n` entries fails at one of them (R171 checks 5 and 7). -/
theorem range_fails_iff (p : Nat → Prop) [DecidablePred p] :
    decide (∃ v ∈ s.entries t n, p v) = true ↔ ∃ i < n, p (s.entry t i) := by
  simp [mem_entries]

/-- A check for duplicates fails at two equal entries (R171 checks 6 and 8). -/
theorem duplicates_fail_iff :
    decide (¬ (s.entries t n).Nodup) = true ↔ ∃ i < n, ∃ j < i, s.entry t i = s.entry t j := by
  simp [nodup_entries]

/-- A bounds check fails at a buffer that leaves `MEM` (R171 check 9, R57). -/
theorem bounds_fail_iff (size : Nat) :
    decide (¬ buffersInside size (s.entries t n)) = true ↔ ∃ i < n, Config.memSize < s.entry t i + size := by
  rw [decide_eq_true_iff, buffersInside_entries]
  push Not
  rfl

end Entries

/-- Check 9 of R171: its two parts raise one error. -/
theorem guarded_decodeBufferChecks (s : State) (e : Nat) (body : Result) :
    guarded (decodeBufferChecks s e) s body =
      if (∃ p < s.dimK.toNat, Config.memSize < s.entry .dptr p + s.blockSize) ∨
          ∃ t < e, Config.memSize < s.entry .fptr t + s.blockSize then .next (s.setErr .badBuf)
      else body :=
  guarded_pair_of_iff (bounds_fail_iff s .dptr _ _) (bounds_fail_iff s .fptr e _) s body

/-- Settles O26: check after check, each by what its failing says. -/
theorem decodeChecksInOrder : Obligations.DecodeChecksInOrder := by
  intro k e a s
  rw [exec, execDecode, decodeChecks, guarded_cons_of_iff (needsTables_fails_iff s),
    guarded_cons_of_iff (needsMatrixK_fails_iff s k), guarded_cons_of_iff decide_eq_true_iff,
    guarded_cons_of_iff decide_eq_true_iff, guarded_cons_of_iff (range_fails_iff s .eras e _),
    guarded_cons_of_iff (duplicates_fail_iff s .eras e), guarded_cons_of_iff (range_fails_iff s .fidx a _),
    guarded_cons_of_iff (duplicates_fail_iff s .fidx a), guarded_nil, guarded_decodeBufferChecks]
  rfl

/-- Settles O27: with legal indices checks 1 to 8 pass, and with no erasure DECODE ends after them. -/
theorem decodeWithoutErasures : Obligations.DecodeWithoutErasures := by
  intro k a s h
  rw [exec, execDecode, guarded_of_none ((decodeChecks_none_iff s k 0 a).mpr h), if_pos rfl, succeed_eq]

/-! ### The decode matrix and the sources -/

/-- Settles O28: the two kinds of row by entry. -/
theorem decodeMatrixRows : Obligations.DecodeMatrixRows := by
  intro k e s hdistinct p hp c hc
  refine ⟨?_, fun hsurvives => entryAt_decodeMatrix_surviving hsurvives hp hc⟩
  rintro t ht rfl
  exact entryAt_decodeMatrix_erased hdistinct ht hp hc

theorem sourcePtr_erased {s : State} {e u c : Nat} (hdistinct : ∀ t < e, ∀ u < t, s.entry .eras t ≠ s.entry .eras u)
    (hu : u < e) (hc : s.entry .eras u = c) : sourcePtr s e c = s.entry .fptr u := by
  rw [sourcePtr, erasedSlot_of_erased hdistinct hu hc]

theorem sourcePtr_surviving {s : State} {e c : Nat} (h : ¬ isErased s e c) : sourcePtr s e c = s.entry .dptr c := by
  rw [sourcePtr, erasedSlot_of_surviving h]

/-- Settles O31: an erased position has its slot, a surviving one has none. -/
theorem sourceOfAPosition : Obligations.SourceOfAPosition := by
  intro e c s hdistinct
  exact ⟨fun u hu hc => sourcePtr_erased hdistinct hu hc, sourcePtr_surviving⟩

/-! ### The bytes DECODE writes -/

/-- A ready DECODE whose elimination gives `v` stores the blocks recovered with `v`. -/
theorem execDecode_of_inverse {s : State} {v : ByteMatrix} {k e a : Nat} (h : decodeReady s k e a)
    (hv : invert s.tables k (decodeMatrix s k e) = some v) : execDecode k e a s = .next (decodedState s v k e) := by
  rw [execDecode_of_ready h, hv]

/-- Settles O30: a ready DECODE stores its recovered blocks, which share no byte, and nothing outside the placeholders. -/
theorem decodeWritesTheRecoveredSums : Obligations.DecodeWritesTheRecoveredSums := by
  intro k e a s v hwf h hv
  exact ⟨storeBlocks s.mem (recoveredBlocks s v k e), execDecode_of_inverse h hv,
    fun t ht x hx => read_storeRecovered_placeholder hwf h ht hx, fun b hb => read_storeRecovered_of_outside hwf h hb⟩

/-! ### Surplus parity buffers -/

theorem setErr_setSlot (s : State) (err : Err) (u : OperandTable) (j : Fin 256) (w : Word) :
    (s.setErr err).setSlot u j w = (s.setSlot u j w).setErr err := by cases u <;> rfl

theorem setMem_setSlot (s : State) (m : Memory) (u : OperandTable) (j : Fin 256) (w : Word) :
    (s.setMem m).setSlot u j w = (s.setSlot u j w).setMem m := by cases u <;> rfl

/-- A write to one entry of a table leaves its other entries alone (R31 to R34). -/
theorem entry_setSlot_of_ne {s : State} {u : OperandTable} {i : Nat} {j : Fin 256} (h : i ≠ j.val) (w : Word) :
    (s.setSlot u j w).entry u i = s.entry u i := by
  rw [State.entry, setSlot_operands_self, State.entry]
  congr 1
  simp [Vector.getD, h.symm]

/-- Checks that an entry of a table does not enter answer the same whatever it holds. -/
theorem guarded_setSlot {checks : List (Bool × Err)} {s t : State} {body body' : Result} {u : OperandTable}
    {j : Fin 256} {w : Word} (h : guarded checks s body = .next t)
    (hbody : body = .next t → body' = .next (t.setSlot u j w)) :
    guarded checks (s.setSlot u j w) body' = .next (t.setSlot u j w) := by
  cases hc : firstError checks with
  | none =>
    rw [guarded_of_none hc] at h ⊢
    exact hbody h
  | some err =>
    rw [guarded_of_some hc] at h ⊢
    cases h
    rw [setErr_setSlot]

section Surplus
variable {s : State} {e : Nat} {j : Fin 256} (hj : e ≤ j.val) (w : Word)

/-- Checks 1 to 8 of R171 read no parity address. -/
theorem decodeChecks_setSlot_fptr (k a : Nat) : decodeChecks (s.setSlot .fptr j w) k e a = decodeChecks s k e a := rfl

theorem decodeMatrix_setSlot_fptr (k : Nat) : decodeMatrix (s.setSlot .fptr j w) k e = decodeMatrix s k e := rfl

theorem decodeWrites_setSlot_fptr : decodeWrites (s.setSlot .fptr j w) e = decodeWrites s e := rfl

include hj

theorem parityPtrs_setSlot_fptr : parityPtrs (s.setSlot .fptr j w) e = parityPtrs s e :=
  List.map_congr_left fun i hi => entry_setSlot_of_ne (by have := List.mem_range.mp hi; omega) w

theorem decodeBufferChecks_setSlot_fptr :
    decodeBufferChecks (s.setSlot .fptr j w) e = decodeBufferChecks s e := by
  rw [decodeBufferChecks, parityPtrs_setSlot_fptr hj]
  rfl

theorem decodeReads_setSlot_fptr (k : Nat) : decodeReads (s.setSlot .fptr j w) k e = decodeReads s k e := by
  rw [decodeReads, parityPtrs_setSlot_fptr hj]
  rfl

/-- The slots of the erased positions are below `E`, so that no position is read from a surplus buffer (R172). -/
theorem sourcePtr_setSlot_fptr (c : Nat) : sourcePtr (s.setSlot .fptr j w) e c = sourcePtr s e c := by
  have hslot : erasedSlot (s.setSlot .fptr j w) e c = erasedSlot s e c := rfl
  rw [sourcePtr, sourcePtr, hslot]
  cases h : erasedSlot s e c with
  | none => rfl
  | some u =>
    have hu : u < e := List.mem_range.mp (List.mem_of_find?_eq_some h)
    exact entry_setSlot_of_ne (by omega) w

theorem recoveredBlocks_setSlot_fptr (v : ByteMatrix) (k : Nat) :
    recoveredBlocks (s.setSlot .fptr j w) v k e = recoveredBlocks s v k e := by
  refine List.map_congr_left fun p _ => congrArg (Prod.mk _) (List.map_congr_left fun x _ => xorSum_congr fun c _ => ?_)
  rw [sourcePtr_setSlot_fptr hj]
  rfl

theorem reconstruct_setSlot_fptr {t : State} {v : ByteMatrix} {k : Nat} (h : reconstruct s v k e = .next t) :
    reconstruct (s.setSlot .fptr j w) v k e = .next (t.setSlot .fptr j w) := by
  rw [reconstruct, if_neg (not_not.mpr (buffersValid_default _ _))] at h ⊢
  rw [decodeWrites_setSlot_fptr, decodeReads_setSlot_fptr hj, recoveredBlocks_setSlot_fptr hj, setSlot_blockSize]
  split_ifs at h ⊢
  cases h
  rw [succeed_eq, setErr_setSlot, setMem_setSlot, setSlot_mem]

end Surplus

/-- Settles O34: every part of DECODE reads the parity addresses below `E` only. -/
theorem surplusParityIsIgnored : Obligations.SurplusParityIsIgnored := by
  intro k e a s t j w hj h
  rw [exec, execDecode] at h ⊢
  rw [decodeChecks_setSlot_fptr]
  refine guarded_setSlot h fun h => ?_
  by_cases he : e = 0
  · rw [if_pos he] at h ⊢
    cases h
    rw [succeed_eq, setErr_setSlot]
  · rw [if_neg he] at h ⊢
    rw [decodeBufferChecks_setSlot_fptr hj, decodeMatrix_setSlot_fptr, setSlot_tables]
    refine guarded_setSlot h fun h => ?_
    cases hv : invert s.tables k (decodeMatrix s k e) with
    | none =>
      rw [hv] at h
      cases h
      exact congrArg Host.Outcome.next (setErr_setSlot ..).symm
    | some v =>
      rw [hv] at h
      exact reconstruct_setSlot_fptr hj w h

/-! ### The prior contents of the placeholders -/

/-- Stored blocks hide what memory held at their places. -/
theorem storeBlocks_congr {m m' : Memory} (h : m.wf) (h' : m'.wf) {bs : List (Nat × List Byte)}
    (hi : ∀ b ∈ bs, insideMem b.1 b.2.length)
    (hd : bs.Pairwise fun b c => rangesApart b.1 b.2.length c.1 c.2.length)
    (heq : ∀ x, (∀ b ∈ bs, ¬ inBuffer b.2.length b.1 x) → m.read x = m'.read x) :
    storeBlocks m bs = storeBlocks m' bs := by
  refine Memory.ext_of_wf (wf_storeBlocks h hi) (wf_storeBlocks h' hi) fun x => ?_
  by_cases hx : ∃ b ∈ bs, inBuffer b.2.length b.1 x
  · obtain ⟨b, hb, hlo, hhi⟩ := hx
    obtain ⟨y, rfl⟩ := Nat.exists_eq_add_of_le hlo
    have hy : y < b.2.length := by omega
    rw [read_storeBlocks h hi hd hb hy, read_storeBlocks h' hi hd hb hy]
  · push Not at hx
    have hout : ∀ b ∈ bs, x < b.1 ∨ b.1 + b.2.length ≤ x := fun b hb => by
      have := hx b hb
      omega
    rw [read_storeBlocks_of_outside h hi hout, read_storeBlocks_of_outside h' hi hout]
    exact heq x fun b hb => by have := hout b hb; omega

/-- Every placeholder has its recovered block. -/
theorem not_inBuffer_placeholder {s : State} {v : ByteMatrix} {k e x : Nat}
    (h : ∀ b ∈ recoveredBlocks s v k e, ¬ inBuffer b.2.length b.1 x) {t : Nat} (ht : t < e) :
    ¬ inBuffer s.blockSize (s.entry .dptr (s.entry .eras t)) x := by
  simpa [recoveredBlock] using h (s.entry .dptr (s.entry .eras t), recoveredBlock s v k e (s.entry .eras t))
    (List.mem_map_of_mem (mem_entries.mpr ⟨t, ht, rfl⟩))

/-- A DECODE that is ready and answers with `OK` has found an inverse and stored the recovered blocks. -/
theorem exists_inverse_of_answer {s t : State} {k e a : Nat} (hr : decodeReady s k e a)
    (h : execDecode k e a s = .next t) (hok : t.err = .ok) :
    ∃ v, invert s.tables k (decodeMatrix s k e) = some v ∧ t = decodedState s v k e := by
  rw [execDecode_of_ready hr] at h
  cases hv : invert s.tables k (decodeMatrix s k e) with
  | none =>
    rw [hv] at h
    cases h
    cases hok
  | some v =>
    rw [hv] at h
    cases h
    exact ⟨v, rfl, rfl⟩

/-- Memory that differs inside the placeholders only gives a ready DECODE the same state (R177). -/
theorem decodedState_setMem {s : State} {v : ByteMatrix} {k e a : Nat} {m : Memory} (hwf : s.mem.wf) (hm : m.wf)
    (hr : decodeReady s k e a)
    (hout : ∀ b, (∀ t < e, ¬ inBuffer s.blockSize (s.entry .dptr (s.entry .eras t)) b) → m.read b = s.mem.read b) :
    decodedState (s.setMem m) v k e = decodedState s v k e := by
  have hblocks : recoveredBlocks (s.setMem m) v k e = recoveredBlocks s v k e :=
    recoveredBlocks_setMem fun c hc x hx => hout _ fun t ht => not_inBuffer_of_rangesApart (sourcePtr_apart hr ht hc) hx
  rw [decodedState, hblocks, setMem_mem, setMem_setMem, decodedState,
    storeBlocks_congr hm hwf (recoveredBlocks_inside hr) (recoveredBlocks_apart hr) fun x hx =>
      hout x fun t ht => not_inBuffer_placeholder hx ht]

/-- Settles O35: no byte of a placeholder is read, and each is written over. -/
theorem placeholderContentsDoNotMatter : Obligations.PlaceholderContentsDoNotMatter := by
  intro k e a s t m hwf hm hr hout h hok
  obtain ⟨v, hv, rfl⟩ := exists_inverse_of_answer hr h hok
  calc execDecode k e a (s.setMem m)
      = .next (decodedState (s.setMem m) v k e) := execDecode_of_inverse ((decodeReady_setMem m).mpr hr) hv
    _ = .next (decodedState s v k e) := congrArg _ (decodedState_setMem hwf hm hr hout)

end Sys2Proof.Machine
end

section
/-! Proofs: the errors of the commands (60_exceptions.md): failure changes nothing but `ERR` (R213), every command but
INIT fails before INIT (R207), `SINGULAR` never results (R205), and the idle engine (R221). -/

namespace Sys2Proof.Machine

/-! ### SINGULAR -/

/-- With a built matrix a DECODE with legal indices finds its inverse, so that none answers with `SINGULAR` (R205). -/
theorem execDecode_err_ne_singular {s t : State} (hs : Invariant s) {k e a : Nat}
    (h : execDecode k e a s = .next t) : t.err ≠ .singular := by
  rcases execDecode_cases k e a s with
    ⟨err, herr, heq⟩ | ⟨-, -, heq⟩ | ⟨hi, hnone, -⟩ | heq | ⟨-, v, -, heq⟩
  · cases heq.symm.trans h
    exact ne_of_mem_of_not_mem herr (by decide)
  · cases heq.symm.trans h
    exact nofun
  · obtain ⟨v, hv, -⟩ := exists_inverse_of_decodeMatrix hi hs
    cases hnone.symm.trans hv
  · cases heq.symm.trans h
  · cases heq.symm.trans h
    exact nofun

/-- Settles O32: the elimination of a ready DECODE finds an inverse, and `SINGULAR` is the answer without one only. -/
theorem decodeIsNeverSingular : Obligations.DecodeIsNeverSingular := by
  intro k e a s hs
  refine ⟨fun t => execDecode_err_ne_singular hs, fun hready => ?_⟩
  have ⟨_, hindices, _⟩ := hready
  obtain ⟨v, hv, -⟩ := exists_inverse_of_decodeMatrix hindices hs
  exact ⟨decodedState s v k e, execDecode_of_inverse hready hv, rfl⟩

/-! ### Failure -/

/-- A command whose answer is not `OK` has changed `ERR` only: every effect on another part of the state ends with
`OK` (R13, R213). -/
theorem CommandEffect.eq_setErr_of_failure {i : Instr} {s t : State} (h : CommandEffect s i t) (hfail : t.err ≠ .ok) :
    t = s.setErr t.err := by
  cases h with
  | onlyErr => rfl
  | tables | result | matrix | store => exact absurd rfl hfail

/-- Settles O37: the effects of a command that answers with an error. -/
theorem failureChangesOnlyErr : Obligations.FailureChangesOnlyErr :=
  fun _ _ _ h hfail => (exec_effect h).eq_setErr_of_failure hfail

/-! ### Before INIT -/

/-- While `TV = 0` a command whose first check is that of R207 raises `NOTINIT`, whatever its other checks. -/
theorem guarded_needsTables_of_not_tv {s : State} (htv : s.tv = false) (rest : List (Bool × Err)) (body : Result) :
    guarded (needsTables s :: rest) s body = .next (s.setErr .notInit) :=
  guarded_of_head_fails ((needsTables_fails_iff s).mpr htv) rest s body

/-- Settles O36: the check of R207 is the first of every command but INIT. -/
theorem commandsBeforeInitRaiseNotinit : Obligations.CommandsBeforeInitRaiseNotinit := by
  intro i s hi htv
  cases i with
  | init => exact absurd rfl hi
  | gfmul | gfdiv | gfinv | build | matrd | encode | decode => exact guarded_needsTables_of_not_tv htv _ _

/-! ### The idle engine -/

/-- With no move pending the step holds the state (R221). -/
theorem step_of_idle {s : State} (h : s.pending = []) : step s = .next s := by
  rw [step, advance, h]

/-- Settles O49: the step of the idle engine. -/
theorem idleEngineHoldsItsState : Obligations.IdleEngineHoldsItsState :=
  fun _ => step_of_idle

end Sys2Proof.Machine
end
